-- ==== Sys2Proof/Word.lean ====
section
/-! DEFINITION. The plain types of the CRSF encoder core: bytes, channel values, line levels (R17); ticks of the time source are natural numbers (R17) and are written Nat, transmitter states (R38) and the closed list of refusal reasons (R241). -/

namespace Sys2Proof

/-- A Byte: an unsigned 8-bit integer (R17). -/
abbrev Byte := BitVec 8

/-- A UInt16: an unsigned 16-bit integer (R17), the type of one channel value. -/
abbrev Half := BitVec 16

/-- The electrical level of the signal line (R17). -/
inductive Level where
  | low
  | high
deriving DecidableEq, Repr

/-- The transmitter's state machine, "IDLE → PREAMBLE → BYTE(i) → IDLE" (R38). -/
inductive TxState where
  | idle
  | preamble
  | byte (i : Nat)
deriving DecidableEq, Repr

/-- The refusal reasons, a closed list (R241). -/
inductive RefuseReason where
  /-- CRC8 with `length` beyond the buffer (R121). -/
  | crcLengthBeyondBuffer
  /-- PACK, BUILD_FRAME or BUILD_AND_SEND with other than 16 values (R140, R160). -/
  | wrongChannelCount
  /-- UNPACK of other than 22 bytes (R141). -/
  | wrongPayloadSize
  /-- SEND_BUFFER with `n` beyond the buffer (R182). -/
  | sendLengthBeyondBuffer
  /-- A transmitting or gating operation, or RESET, while `tx_state` is not IDLE (R256). -/
  | reentrantTransmit
  /-- A selector that no row of the operation table has (R99). -/
  | reservedSelector
deriving DecidableEq, Repr

/-- What an operation gives its caller (the result column of R104, or the refusal of R21). -/
inductive Return where
  /-- No operation has returned yet. -/
  | none
  /-- Completed without a result. -/
  | unit
  | byte (b : Byte)
  | bytes (bs : List Byte)
  | halves (vs : List Half)
  | refused (r : RefuseReason)
deriving DecidableEq, Repr

end Sys2Proof
end

