-- ==== Sys2Proof/Config.lean ====
section
/-! DEFINITION. The fixed constants of R13, the configuration record of R14, R15 and R33, and the free values: what the time source and the channel store answer where no input list says it. -/

namespace Sys2Proof

/-- BAUD, bits per second (R13). -/
def baud : Nat := 420000
/-- BIT_US = 1000000 / BAUD microseconds, exactly 50/21 (R13, R93). -/
def bitUs : Rat := 1000000 / 420000
/-- FRAME_SIZE (R13, R80). -/
def frameSize : Nat := 26
/-- LEN, frame byte 1 (R13, R82). -/
def frameLen : Byte := 0x18#8
/-- TYPE, frame byte 2 (R13, R83). -/
def frameType : Byte := 0x16#8
/-- PAYLOAD_SIZE (R13, R84). -/
def payloadSize : Nat := 22
/-- NUM_CHANNELS (R13). -/
def numChannels : Nat := 16
/-- CHANNEL_BITS (R13). -/
def channelBits : Nat := 11
/-- CH_MIN (R13, R146). -/
def chMin : Half := 172#16
/-- CH_MAX (R13, R146). -/
def chMax : Half := 1811#16
/-- CH_CENTER (R13, R146, R161). -/
def chCenter : Half := 991#16
/-- CRC_POLY (R13, R120). -/
def crcPoly : Byte := 0xD5#8
/-- CRC_INIT (R13, R121). -/
def crcInit : Byte := 0x00#8
/-- INTERVAL_MS (R13, R221). -/
def intervalMs : Nat := 20
/-- CHAR_BITS: 1 start, 8 data, 1 stop (R13, R90). -/
def charBits : Nat := 10
/-- PREAMBLE_LEVELS (R13, R94). -/
def preambleLevels : List Level := [.high, .low, .high, .low]

/-- The configuration: read-only, fixed before reset (R33). -/
structure Config where
  /-- ADDR, frame byte 0 (R14, R81). -/
  addr : Byte
  /-- PREAMBLE_ENABLE: whether the four levels are sent; the gap always is (R14, R94). -/
  preambleEnable : Bool
  /-- PREAMBLE_PHASE_TICKS (R14). -/
  preamblePhaseTicks : Nat
  /-- GAP_TICKS (R14). -/
  gapTicks : Nat
  /-- INTERVAL_TICKS (R14, R221). -/
  intervalTicks : Nat
  /-- F_TICK, ticks per second (R15). -/
  fTick : Nat
  /-- EDGE_SLACK: how late a busy-wait inside a character may release (R15). -/
  edgeSlack : Nat
  /-- BIT_TOLERANCE, a fraction of a bit period; validation only, absent where none is set (R15, R190). -/
  bitTolerance : Option Rat
  /-- TIME_WIDTH: the width of a wrapping counter; `none` is unbounded (R15, R226). -/
  timeWidth : Option Nat
deriving DecidableEq, Repr

/-- The constraints R15 places on the open parameters. -/
abbrev Config.wf (c : Config) : Prop := baud ≤ c.fTick ∧ c.timeWidth ≠ some 0

/-- The configuration with the defaults of R14 for a time source of frequency `f`: one bit period for
each preamble level (D9), 100 us for the gap (D10), 20 ms for the interval (D34). -/
def Config.forFTick (f : Nat) : Config where
  addr := 0xC8#8
  preambleEnable := true
  preamblePhaseTicks := 1 * f / baud
  gapTicks := (f * 100 + 999999) / 1000000
  intervalTicks := (f * intervalMs + 999) / 1000
  fTick := f
  edgeSlack := 0
  bitTolerance := none
  timeWidth := none

/-- The reference configuration of R14 and R15 (log 8). -/
def Config.reference : Config := Config.forFTick 240000000

/-- FREE VALUE (log 5): how far the time source has advanced at the n-th draw that no input answers.
R37 leaves it open but for being non-negative; it has no body, so nothing rests on its values. -/
opaque Config.freeTicks : Nat → Nat

/-- FREE VALUE (log 13): the value of channel `i` that the channel store answers at the n-th draw that
no input answers. R66 leaves it open. -/
opaque Config.freeChannel : Nat → Nat → Half

end Sys2Proof
end

