-- ==== Sys2Proof/Syntax.lean ====
section
/-! DEFINITION. The operations of the block, one constructor for each row of spec/opcode_table.json (R104), with the operand values of its row. -/

namespace Sys2Proof

/-- The complete operation set (R104). Arrays are lists, so that an operand of a wrong size can be
written and refused (R140, R141, R160). -/
inductive Instr where
  /-- CRC8_BYTE acc, b (R120). -/
  | crc8Byte (acc b : Byte)
  /-- CRC8 buf, length (R121). -/
  | crc8 (buf : List Byte) (length : Nat)
  /-- PACK values (R140). -/
  | pack (values : List Half)
  /-- UNPACK payload (R141). -/
  | unpack (payload : List Byte)
  /-- BUILD_FRAME snap (R160). -/
  | buildFrame (snap : List Half)
  /-- TX_PREAMBLE (R180). -/
  | txPreamble
  /-- TX_BYTE b (R181). -/
  | txByte (b : Byte)
  /-- SEND_BUFFER buf, n (R182). -/
  | sendBuffer (buf : List Byte) (n : Nat)
  /-- BUILD_AND_SEND snap (R183). -/
  | buildAndSend (snap : List Half)
  /-- TICK (R220). -/
  | tick
  /-- RESET (R260). -/
  | reset
deriving DecidableEq, Repr

end Sys2Proof
end

