-- ==== Sys2Proof/WellFormed.lean ====
section
/-! DEFINITION. Which operations have the operands that R104 gives their row: the array sizes, and a length within its buffer. -/

namespace Sys2Proof

/-- The operands have the shapes of R104 and the lengths stay inside their buffers (R121, R140, R141,
R160, R182). An operation that fails this is still decoded; it is refused when it runs (R241). -/
def Instr.wellFormed : Instr → Bool
  | .crc8Byte _ _ => true
  | .crc8 buf length => decide (length ≤ buf.length)
  | .pack values => decide (values.length = numChannels)
  | .unpack payload => decide (payload.length = payloadSize)
  | .buildFrame snap => decide (snap.length = numChannels)
  | .txPreamble => true
  | .txByte _ => true
  | .sendBuffer buf n => decide (n ≤ buf.length)
  | .buildAndSend snap => decide (snap.length = numChannels)
  | .tick => true
  | .reset => true

end Sys2Proof
end

