-- ==== Sys2Proof/Decode.lean ====
section
/-! DEFINITION. The selector encoding SEL8 (R98, R104): a call is one selector byte with its operand values beside it; the decoder, and after it the encoder. -/

namespace Sys2Proof

/-- The operand values of a call, one slot for each operand name of R104. "An operation's operands are
not part of the selector" (R98): an operation reads its own slots and no other (log 2). -/
structure Operands where
  /-- `acc` of CRC8_BYTE. -/
  acc : Byte
  /-- `b` of CRC8_BYTE and TX_BYTE. -/
  b : Byte
  /-- `buf` of CRC8 and SEND_BUFFER, `payload` of UNPACK. -/
  buf : List Byte
  /-- `length` of CRC8, `n` of SEND_BUFFER. -/
  len : Nat
  /-- `values` of PACK, `snap` of BUILD_FRAME and BUILD_AND_SEND. -/
  values : List Half
deriving DecidableEq, Repr

/-- Every operand empty or zero: the slots that an operation does not use. -/
def Operands.unused : Operands := ⟨0#8, 0#8, [], 0, []⟩

/-- Every operand zero in the shape R104 gives it: 22 zero bytes, 16 zero channel values. -/
def Operands.zeros : Operands :=
  ⟨0#8, 0#8, List.replicate payloadSize 0#8, 0, List.replicate numChannels 0#16⟩

/-- A call as the caller makes it: the selector byte and the operand values (R98). -/
structure Call where
  sel : Byte
  args : Operands
deriving DecidableEq, Repr

/-- The decoder: total on every selector, by the rows of R104; a selector of no row is refused as
ReservedSelector, before any operand is looked at (R99, R241). -/
def decode (c : Call) : Except RefuseReason Instr :=
  match c.sel.toNat with
  | 0x01 => .ok (.crc8Byte c.args.acc c.args.b)
  | 0x02 => .ok (.crc8 c.args.buf c.args.len)
  | 0x10 => .ok (.pack c.args.values)
  | 0x11 => .ok (.unpack c.args.buf)
  | 0x20 => .ok (.buildFrame c.args.values)
  | 0x30 => .ok .txPreamble
  | 0x31 => .ok (.txByte c.args.b)
  | 0x32 => .ok (.sendBuffer c.args.buf c.args.len)
  | 0x40 => .ok (.buildAndSend c.args.values)
  | 0x50 => .ok .tick
  | 0x60 => .ok .reset
  | _ => .error .reservedSelector

/-- The selector byte of an operation: its component group in bits 7..4, the operation in bits 3..0
(R98, R104). -/
def selector : Instr → Byte
  | .crc8Byte _ _ => 0x01#8
  | .crc8 _ _ => 0x02#8
  | .pack _ => 0x10#8
  | .unpack _ => 0x11#8
  | .buildFrame _ => 0x20#8
  | .txPreamble => 0x30#8
  | .txByte _ => 0x31#8
  | .sendBuffer _ _ => 0x32#8
  | .buildAndSend _ => 0x40#8
  | .tick => 0x50#8
  | .reset => 0x60#8

/-- The operand slots of an operation, the others unused. -/
def operandsOf : Instr → Operands
  | .crc8Byte acc b => { Operands.unused with acc := acc, b := b }
  | .crc8 buf length => { Operands.unused with buf := buf, len := length }
  | .pack values => { Operands.unused with values := values }
  | .unpack payload => { Operands.unused with buf := payload }
  | .buildFrame snap => { Operands.unused with values := snap }
  | .txPreamble => Operands.unused
  | .txByte b => { Operands.unused with b := b }
  | .sendBuffer buf n => { Operands.unused with buf := buf, len := n }
  | .buildAndSend snap => { Operands.unused with values := snap }
  | .tick => Operands.unused
  | .reset => Operands.unused

/-- The encoder: the call that stands for an operation. -/
def encode (i : Instr) : Call := ⟨selector i, operandsOf i⟩

/-- The call whose selector is the word `w` and whose operand values are all zero. -/
def callOfWord (w : Nat) : Call := ⟨BitVec.ofNat 8 w, Operands.zeros⟩

/-- The operation the decoder reads from the table word `w` of `nbits` bits: SEL8 is one 8-bit field
and "the only format" (R98), so any other width gives none. -/
def decodeTableWord (nbits w : Nat) : Option Instr :=
  if nbits = 8 ∧ w < 256 then
    match decode (callOfWord w) with
    | .ok i => some i
    | .error _ => none
  else none

end Sys2Proof
end

