-- ==== Sys2Proof/Machine/State.lean ====
section
/-! DEFINITION. The machine's state: the block's own record of R31, the configuration of R33, and beside them the model's view of the environment and of what it observes; why a step can stop; and the state after reset. -/

namespace Sys2Proof.Machine

/-- The complete state of the block, with exactly the fields of R31. `none` in an Option field is the
spec's own "unwritten" (R40, R47, R48). -/
structure Block where
  /-- `line`: the electrical level of the one output (R34). -/
  line : Level
  /-- `irq_masked`: the host's interrupt-suppression state (R36). -/
  irqMasked : Bool
  /-- `irq_saved`: its value at EnterCritical, inside one TX_BYTE (R36, R242). -/
  irqSaved : Option Bool
  /-- `tx_state` (R38). -/
  txState : TxState
  /-- `sent_any` (R40). -/
  sentAny : Bool
  /-- `last_send` (R40). -/
  lastSend : Option Nat
  /-- `refused`: the model-only mark (R41). -/
  refused : Bool
  /-- `crc_acc`, inside one CRC8 (R42). -/
  crcAcc : Option Byte
  /-- `cursor`, inside one PACK (R43). -/
  cursor : Option Nat
  /-- `frame`, one frame cycle (R44). -/
  frame : Option (List Byte)
  /-- `snap`, one frame cycle (R45). -/
  snap : Option (List Half)
  /-- `t0`, inside one TX_BYTE (R181). -/
  t0 : Option Nat
deriving DecidableEq, Repr

/-- What can be observed of a run, in program order (log 15). The `drive` events are the line history
of R191. -/
inductive Event where
  /-- A `Drive` of the line at a time (R34, R191). -/
  | drive (t : Nat) (l : Level)
  /-- A write of `tx_state` at a time (R184). -/
  | tx (t : Nat) (x : TxState)
  /-- The block's write of `irq_masked` at a time (R242). -/
  | mask (t : Nat) (on : Bool)
  /-- What an operation called by host activity gave back (R256). -/
  | host (t : Nat) (r : Return)
deriving DecidableEq, Repr

/-- One operation the caller is going to make: not before `notBefore` (R101), with the host having
set its interrupt mask to `hostMask` by then, where it set it at all (R36, log 20). -/
structure Arrival where
  notBefore : Nat
  hostMask : Option Bool
  call : Call
deriving DecidableEq, Repr

/-- The fields that can be unwritten (R47, R48). -/
inductive Field where
  | irqSaved
  | lastSend
  | crcAcc
  | cursor
  | frame
  | snap
  | t0
deriving DecidableEq, Repr

/-- Why the machine stops with a fault. -/
inductive Fault where
  /-- A field was read that holds no value: "A model that reads one before it is written in the same
  operation must fault" (R48). Raised by the readers of Machine/Ops.lean. Safe: no rule makes such a
  read, and no state that a run reaches has one. -/
  | unwrittenRead (f : Field)
deriving DecidableEq, Repr

/-- Why the model gives an instruction no meaning. (The refusals of R21 are not this: they are next
states, log 3.) -/
inductive Refusal where
  /-- The instruction has no meaning in the model yet. Raised by a refused arm of Machine/Dispatch.lean
  only; no arm is one. Safe: nothing can be proved of the step. -/
  | notModelled (mnemonic : String)
deriving DecidableEq, Repr

/-- The state of the machine: the block, its configuration, and the model's view of the environment. -/
structure State where
  /-- The block (R31). -/
  block : Block
  /-- The configuration (R33). -/
  cfg : Config
  /-- The time known to have been reached; every later read of the time source is at least this (R37). -/
  now : Nat
  /-- Everything observed, oldest first (R191, log 15). -/
  log : List Event
  /-- What the caller's last operation gave back (R104, R21). -/
  ret : Return
  /-- The caller's operations still to come (R10, log 1). -/
  calls : List Arrival
  /-- The calls host activity makes, one batch for each window it gets (R256, log 12). -/
  hostWork : List (List Call)
  /-- The next draws of the time source: a mock clock (R192, log 5). -/
  timeInputs : List Nat
  /-- The next answers of the channel store (R66, log 13). -/
  snapInputs : List (Vector Half 16)
  /-- How many free values have been drawn: the model's own counter (log 5). -/
  draws : Nat
deriving DecidableEq, Repr

/-- The block after RESET: the table of R47, with the two fields RESET does not set at the values that
logs 9 and 10 name. -/
def Block.reset : Block where
  line := .low
  irqMasked := false
  irqSaved := none
  txState := .idle
  sentAny := false
  lastSend := none
  refused := false
  crcAcc := none
  cursor := none
  frame := none
  snap := none
  t0 := none

/-- The machine right after reset (R47, R261): the block of R47, the reference configuration (log 8),
nothing observed, nothing pending and no input given (log 10). -/
def State.reset : State where
  block := Block.reset
  cfg := Config.reference
  now := 0
  log := []
  ret := .none
  calls := []
  hostWork := []
  timeInputs := []
  snapInputs := []
  draws := 0

end Sys2Proof.Machine
end

