-- ==== Sys2Proof/Machine/Ops.lean ====
section
/-! DEFINITION. The primitives of R20 over the state: the time source, the line, the critical section, the refusal, the readers of fields that can be unwritten; the end of an operation; and the taking of the next call. -/

namespace Sys2Proof.Machine

/-- Why a procedure of the block stops before its end: a refusal (R21) or the fault of R48. -/
inductive Stop where
  | refuse (r : RefuseReason)
  | fault (f : Fault)
deriving DecidableEq, Repr

/-- A procedure that can stop: `refuse(reason)` and a faulting read are its errors (R20, R21, R48). -/
abbrev Op (α : Type) := Except Stop α

/-! ### Draws of the environment -/

/-- The next draw of the time source: the mock clock's, and where it has none a free value (R37, R192). -/
def State.tickDraw (s : State) : Nat :=
  match s.timeInputs with
  | d :: _ => d
  | [] => Config.freeTicks s.draws

/-- The state after that draw is used up. -/
def State.useTickDraw (s : State) : State :=
  match s.timeInputs with
  | _ :: ds => { s with timeInputs := ds }
  | [] => { s with draws := s.draws + 1 }

/-- Time passes, by any amount: the draw bounds nothing (R37, R188, R243). -/
def State.elapse (s : State) : State :=
  { s.useTickDraw with now := s.now + s.tickDraw }

/-- Time passes by any amount of at most `bound` ticks (log 6). -/
def State.elapseUpTo (bound : Nat) (s : State) : State :=
  { s.useTickDraw with now := s.now + s.tickDraw % (bound + 1) }

/-- `Snapshot()`: the channel store's next answer, 16 values in one access (R66). -/
def State.snapDraw (s : State) : List Half :=
  match s.snapInputs with
  | v :: _ => v.toList
  | [] => (List.range numChannels).map (Config.freeChannel s.draws)

/-- The state after that answer is used up. -/
def State.useSnapDraw (s : State) : State :=
  match s.snapInputs with
  | _ :: vs => { s with snapInputs := vs }
  | [] => { s with draws := s.draws + 1 }

/-! ### Time -/

/-- `ReadTime()`: a monotonic read; the value read is `now` of the state after it (R37). -/
def State.readTime (s : State) : State := s.elapse

/-- What a counter of the configured width shows at time `t` (R226, log 14). -/
def counterAt (c : Config) (t : Nat) : Nat :=
  match c.timeWidth with
  | none => t
  | some w => t % 2 ^ w

/-- `WaitUntil(t)` outside a critical section: it ends at the first read of at least `t`, however
late that is (R189(b), R249). -/
def State.waitUntil (t : Nat) (s : State) : State :=
  { s.useTickDraw with now := max s.now t + s.tickDraw }

/-- `WaitUntil(t)` inside a critical section: it ends, and what follows it happens, at a time of at
least `t` and, if it was entered by `t + EDGE_SLACK`, of at most `t + EDGE_SLACK` (R189(a), R249). -/
def State.waitInCharacter (t : Nat) (s : State) : State :=
  { s.useTickDraw with
      now := max s.now t + s.tickDraw % (t + s.cfg.edgeSlack - max s.now t + 1) }

/-! ### The line and the transmitter state -/

/-- `Drive(l)`: the line takes the level, and the line history records it (R34, R191). -/
def State.drive (l : Level) (s : State) : State :=
  { s with block.line := l, log := s.log ++ [.drive s.now l] }

/-- `Drive(l)` outside a critical section, where time may pass before it (R243, log 7). -/
def State.driveUnmasked (l : Level) (s : State) : State := s.elapse.drive l

/-- `tx_state <- x` as a transition of R184. MODEL'S CHOICE: the write takes no time and falls at the tick
already reached, for which the spec gives no rule (log 23). -/
def State.setTx (x : TxState) (s : State) : State :=
  { s with block.txState := x, log := s.log ++ [.tx s.now x] }

/-! ### Fields that can be unwritten (R48) -/

/-- Reads a field that can be unwritten: a fault where it holds no value (R48). -/
def readField {α : Type} (f : Field) : Option α → Op α
  | some a => .ok a
  | none => .error (.fault (.unwrittenRead f))

/-- `crc_acc <- a` (R42). -/
def State.setCrcAcc (a : Byte) (s : State) : State := { s with block.crcAcc := some a }
/-- `cursor <- n` (R43). -/
def State.setCursor (n : Nat) (s : State) : State := { s with block.cursor := some n }
/-- `frame <- bs` (R44). -/
def State.setFrame (bs : List Byte) (s : State) : State := { s with block.frame := some bs }
/-- `snap <- vs` (R45). -/
def State.setSnap (vs : List Half) (s : State) : State := { s with block.snap := some vs }
/-- `t0 <- t` (R181). -/
def State.setT0 (t : Nat) (s : State) : State := { s with block.t0 := some t }

/-- The six transient fields hold no value any more (R32, R47). -/
def Block.clearTransients (b : Block) : Block :=
  { b with irqSaved := none, crcAcc := none, cursor := none, frame := none, snap := none, t0 := none }

/-- The six transient fields as another record has them: each activation of an operation has its own
(R32, log 12). -/
def Block.transientsFrom (b old : Block) : Block :=
  { b with irqSaved := old.irqSaved, crcAcc := old.crcAcc, cursor := old.cursor, frame := old.frame,
           snap := old.snap, t0 := old.t0 }

/-! ### The critical section (R242) -/

/-- `EnterCritical()`: saves the mask and sets it. -/
def State.enterCritical (s : State) : State :=
  { s with block.irqSaved := some s.block.irqMasked, block.irqMasked := true,
           log := s.log ++ [.mask s.now true] }

/-- `ExitCritical()`: restores the saved mask, and does not force interrupts on. -/
def State.exitCritical (s : State) : Op State := do
  let saved ← readField .irqSaved s.block.irqSaved
  return { s with block.irqMasked := saved, log := s.log ++ [.mask s.now saved] }

/-! ### Refusal and the end of an operation -/

/-- TAKING A REFUSAL, the one shared operation: the mark is set for good, the caller gets the reason in
place of a result, and no other field of the block changes (R21, R41; log 3). -/
def State.markRefused (r : RefuseReason) (s : State) : State :=
  { s with block.refused := true, ret := .refused r }

/-- The re-entrancy check: refused unless `tx_state` is IDLE (R256, D36). -/
def State.requireIdle (s : State) : Op Unit :=
  if s.block.txState = .idle then .ok () else .error (.refuse .reentrantTransmit)

/-- An operation completes: its result goes to the caller, and no transient field keeps a value
(R21, R32). -/
def State.complete (r : Return) (s : State) : State :=
  { s with block := s.block.clearTransients, ret := r }

/-- The outcome of an operation that was invoked in state `s` and ran to `o`: completed, refused with
nothing changed but the mark, or the fault of R48 (R21, R48). MODEL'S CHOICE: neither the return nor a
refusal takes time (log 24). -/
def conclude (s : State) (o : Op (State × Return)) : Host.Outcome State Fault Refusal :=
  match o with
  | .ok (t, r) => .next (t.complete r)
  | .error (.refuse r) => .next (s.markRefused r)
  | .error (.fault f) => .fault f

/-! ### The next call -/

/-- The caller makes its next call: the state the operation starts in, and the call. Time has reached
the call's own time (R101), and the host's mask is as the host has set it (R36). -/
def State.fetch (s : State) : Option (State × Call) :=
  match s.calls with
  | [] => none
  | a :: rest =>
    some ({ s with calls := rest, now := max s.now a.notBefore,
                   block.irqMasked := a.hostMask.getD s.block.irqMasked }, a.call)

end Sys2Proof.Machine
end

