-- ==== Sys2Proof/Machine/Operands.lean ====
section
/-! DEFINITION. How operand values are laid out in bits: the payload's bit stream (R86, R87), the slots of a character (R90, R91) and their boundaries in time (R95). -/

namespace Sys2Proof.Machine

/-! ### The payload bit stream (R64, R86) -/

/-- A channel value as an 11-bit unsigned quantity: `v mod 2048` (R86, R142). -/
def lane (v : Half) : BitVec 11 := v.setWidth 11

/-- ORs a bit into stream bit `p`, which is bit `p mod 8` of byte `p div 8`; a 0 changes nothing (R64,
R86, R140). -/
def orStreamBit (p : Nat) (bit : Bool) (out : List Byte) : List Byte :=
  out.modify (p / 8) (fun byte => byte ||| ((if bit then 1#8 else 0#8) <<< (p % 8)))

/-- Stream bit `p` of a payload: bit `p mod 8` of byte `p div 8` (R64, R87). -/
def streamBit (payload : List Byte) (p : Nat) : Bool :=
  (payload.getD (p / 8) 0#8).getLsbD (p % 8)

/-- Writes the 11 bits of `v` at the cursor, least significant first (R86, R140). -/
def packLane (v : Half) (cursor : Nat) (out : List Byte) : List Byte :=
  (List.range channelBits).foldl
    (fun o j => orStreamBit (cursor + j) ((lane v).getLsbD j) o) out

/-- `field(P, i)`: the value of channel `i`, zero-extended to 16 bits (R87). -/
def channelField (payload : List Byte) (i : Nat) : Half :=
  (List.range channelBits).foldl
    (fun v j => v ||| ((if streamBit payload (11 * i + j) then 1#16 else 0#16) <<< j)) 0#16

/-! ### Characters (R90, R91) -/

/-- `inv(b)`: logical 0 is HIGH, logical 1 is LOW (R18, R91). -/
def inv (bit : Bool) : Level := if bit then .low else .high

/-- The logical bit of slot `k` of a character: start 0, the data bits least significant first, stop 1
(R90). -/
def slotBit (b : Byte) (k : Nat) : Bool :=
  if k = 0 then false
  else if k ≤ 8 then b.getLsbD (k - 1)
  else true

/-- The line level of slot `k` (R91). -/
def slotLevel (b : Byte) (k : Nat) : Level := inv (slotBit b k)

/-- The ten levels of a character in order (R90, R91). -/
def charLevels (b : Byte) : List Level := (List.range charBits).map (slotLevel b)

/-- `E(k) = floor(k * F_TICK / BAUD)`: the target time of slot boundary `k`, from the character's
start (R95). -/
def slotBoundary (c : Config) (k : Nat) : Nat := k * c.fTick / baud

end Sys2Proof.Machine
end

