-- ==== Sys2Proof/Machine/Flags.lean ====
section
/-! DEFINITION. The block has no status flags or condition codes (R46). What it decides by is the rate gate, which is here. -/

namespace Sys2Proof.Machine

/-- `now - last_send`: on the unbounded tick values (R221), or modulo 2^TIME_WIDTH where the counter
wraps (R226, log 14). -/
def elapsedTicks (c : Config) (now last : Nat) : Int :=
  match c.timeWidth with
  | none => (now : Int) - last
  | some w => ((now : Int) - last) % (2 ^ w : Nat)

/-- The gate is open when `sent_any` is false, or when the elapsed time is at least INTERVAL_TICKS;
`last_send` is read only where `sent_any` is true (R40, R221). -/
def State.gateOpen (now : Nat) (s : State) : Op Bool :=
  if s.block.sentAny then do
    let last ← readField .lastSend s.block.lastSend
    return decide ((s.cfg.intervalTicks : Int) ≤ elapsedTicks s.cfg now last)
  else .ok true

end Sys2Proof.Machine
end

