-- ==== Sys2Proof/Machine/Checksum.lean ====
section
/-! DEFINITION. The Checksum Engine: CRC8_BYTE (R120) and CRC8 (R121). -/

namespace Sys2Proof.Machine

/-- One bit step: shift left, and XOR with the polynomial where the top bit was set (R120). -/
def crcShift (a : Byte) : Byte := if a.msb then (a <<< 1) ^^^ crcPoly else a <<< 1

/-- `n` bit steps. -/
def crcShifts : Nat → Byte → Byte
  | 0, a => a
  | n + 1, a => crcShifts n (crcShift a)

/-- CRC8_BYTE as a function: XOR into the accumulator, then eight bit steps (R120). -/
def crcByte (acc b : Byte) : Byte := crcShifts 8 (acc ^^^ b)

/-- CRC8 as a function of all the bytes it is given, from the initial value 0 (R121). -/
def crcOf (bytes : List Byte) : Byte := bytes.foldl crcByte crcInit

/-- The loop of CRC8: each byte in increasing index order goes into `crc_acc` (R121). -/
def crcLoop : List Byte → State → Op State
  | [], s => .ok s
  | b :: rest, s => do
    let acc ← readField .crcAcc s.block.crcAcc
    crcLoop rest (s.setCrcAcc (crcByte acc b))

/-- CRC8 as a procedure (R121). -/
def runCrc8 (buf : List Byte) (length : Nat) (s : State) : Op (State × Byte) :=
  if buf.length < length then .error (.refuse .crcLengthBeyondBuffer)
  else do
    let s ← crcLoop (buf.take length) (s.setCrcAcc crcInit)
    let acc ← readField .crcAcc s.block.crcAcc
    return (s, acc)

/-- The operation CRC8_BYTE: total, and it writes only its result (R120). MODEL'S CHOICE: it takes
no time, where the spec gives no duration and R243 lets time pass (log 24). -/
def opCrc8Byte (acc b : Byte) (s : State) : Op (State × Return) :=
  .ok (s, .byte (crcByte acc b))

/-- The operation CRC8 (R121). MODEL'S CHOICE: it takes no time, where the spec gives no duration and R243
lets time pass (log 24). -/
def opCrc8 (buf : List Byte) (length : Nat) (s : State) : Op (State × Return) := do
  let (s, crc) ← runCrc8 buf length s
  return (s, .byte crc)

/-- Meaning of CRC8_BYTE (R120). -/
def execCrc8Byte (acc b : Byte) (s : State) : Host.Outcome State Fault Refusal :=
  conclude s (opCrc8Byte acc b s)

/-- Meaning of CRC8 (R121). -/
def execCrc8 (buf : List Byte) (length : Nat) (s : State) : Host.Outcome State Fault Refusal :=
  conclude s (opCrc8 buf length s)

end Sys2Proof.Machine
end

