-- ==== Sys2Proof/Machine/Packer.lean ====
section
/-! DEFINITION. The Channel Packer: PACK (R140) and UNPACK (R141). -/

namespace Sys2Proof.Machine

/-- PACK's lanes from a given bit cursor on, as a function (R140). -/
def packFrom : List Half → Nat → List Byte → List Byte
  | [], _, out => out
  | v :: rest, cursor, out => packFrom rest (cursor + channelBits) (packLane v cursor out)

/-- PACK as a function: into 22 zero bytes, from cursor 0 (R140). -/
def packOf (values : List Half) : List Byte :=
  packFrom values 0 (List.replicate payloadSize 0#8)

/-- The loop of PACK: each channel at `cursor`, which advances by 11 (R43, R140). -/
def packLoop : List Half → List Byte → State → Op (State × List Byte)
  | [], out, s => .ok (s, out)
  | v :: rest, out, s => do
    let cursor ← readField .cursor s.block.cursor
    packLoop rest (packLane v cursor out) (s.setCursor (cursor + channelBits))

/-- PACK as a procedure (R140). -/
def runPack (values : List Half) (s : State) : Op (State × List Byte) :=
  if values.length ≠ numChannels then .error (.refuse .wrongChannelCount)
  else packLoop values (List.replicate payloadSize 0#8) (s.setCursor 0)

/-- UNPACK as a function: the 16 channel fields (R87, R141). -/
def unpackOf (payload : List Byte) : List Half :=
  (List.range numChannels).map (channelField payload)

/-- The operation PACK (R140). MODEL'S CHOICE: it takes no time, where the spec gives no duration and R243
lets time pass (log 24). -/
def opPack (values : List Half) (s : State) : Op (State × Return) := do
  let (s, out) ← runPack values s
  return (s, .bytes out)

/-- The operation UNPACK (R141). MODEL'S CHOICE: it takes no time, where the spec gives no duration and
R243 lets time pass (log 24). -/
def opUnpack (payload : List Byte) (s : State) : Op (State × Return) :=
  if payload.length ≠ payloadSize then .error (.refuse .wrongPayloadSize)
  else .ok (s, .halves (unpackOf payload))

/-- Meaning of PACK (R140). -/
def execPack (values : List Half) (s : State) : Host.Outcome State Fault Refusal :=
  conclude s (opPack values s)

/-- Meaning of UNPACK (R141). -/
def execUnpack (payload : List Byte) (s : State) : Host.Outcome State Fault Refusal :=
  conclude s (opUnpack payload s)

end Sys2Proof.Machine
end

