-- ==== Sys2Proof/Machine/FrameBuilder.lean ====
section
/-! DEFINITION. The Frame Builder: BUILD_FRAME (R160) and the layout of R80. -/

namespace Sys2Proof.Machine

/-- A frame's layout: address, length, type, payload, checksum (R80). -/
def frameLayout (c : Config) (payload : List Byte) (crc : Byte) : List Byte :=
  [c.addr, frameLen, frameType] ++ payload ++ [crc]

/-- BUILD_FRAME as a function: the checksum covers the type byte and the payload (R85, R160). -/
def frameOf (c : Config) (snap : List Half) : List Byte :=
  frameLayout c (packOf snap) (crcOf (frameType :: packOf snap))

/-- BUILD_FRAME as a procedure: PACK, then CRC8 over the type byte and the payload, and the frame is
written (R160). -/
def runBuildFrame (snap : List Half) (s : State) : Op (State × List Byte) :=
  if snap.length ≠ numChannels then .error (.refuse .wrongChannelCount)
  else do
    let s := s.setSnap snap
    let values ← readField .snap s.block.snap
    let (s, payload) ← runPack values s
    let (s, crc) ← runCrc8 (frameType :: payload) 23 s
    let s := s.setFrame (frameLayout s.cfg payload crc)
    let frame ← readField .frame s.block.frame
    return (s, frame)

/-- The operation BUILD_FRAME (R160). MODEL'S CHOICE: it takes no time, where the spec gives no duration and
R243 lets time pass (log 24). -/
def opBuildFrame (snap : List Half) (s : State) : Op (State × Return) := do
  let (s, frame) ← runBuildFrame snap s
  return (s, .bytes frame)

/-- Meaning of BUILD_FRAME (R160). -/
def execBuildFrame (snap : List Half) (s : State) : Host.Outcome State Fault Refusal :=
  conclude s (opBuildFrame snap s)

end Sys2Proof.Machine
end

