-- ==== Sys2Proof/Machine/HostActivity.lean ====
section
/-! DEFINITION. What the host's other activity can do while a transmission is between two steps and interrupts are not masked: let time pass, and call operations (R188, R243, R256). -/

namespace Sys2Proof.Machine

/-- An operation called by host activity gives back `r` (R256). -/
def State.logHost (r : Return) (s : State) : State :=
  { s with log := s.log ++ [.host s.now r] }

/-- A call by host activity is refused: the mark is set (R41, R256). -/
def State.hostRefused (r : RefuseReason) (s : State) : State :=
  { s with block.refused := true, log := s.log ++ [.host s.now (.refused r)] }

/-- A pure operation called by host activity has run to `o`: it touches no persistent state, and the
interrupted operation's transient fields are its own (R256, log 12). -/
def concludeHost (s : State) (o : Op (State × Return)) : Op State :=
  match o with
  | .ok (t, r) => .ok ({ t with block := t.block.transientsFrom s.block }.logHost r)
  | .error (.refuse r) => .ok (s.hostRefused r)
  | .error (.fault f) => .error (.fault f)

/-- One call by host activity during a transmission: the pure operations run, and every operation that
transmits or gates, and RESET, is refused with ReentrantTransmit (R256). -/
def hostCall (c : Call) (s : State) : Op State :=
  match decode c with
  | .error r => .ok (s.hostRefused r)
  | .ok (.crc8Byte acc b) => concludeHost s (opCrc8Byte acc b s)
  | .ok (.crc8 buf length) => concludeHost s (opCrc8 buf length s)
  | .ok (.pack values) => concludeHost s (opPack values s)
  | .ok (.unpack payload) => concludeHost s (opUnpack payload s)
  | .ok (.buildFrame snap) => concludeHost s (opBuildFrame snap s)
  | .ok .txPreamble => .ok (s.hostRefused .reentrantTransmit)
  | .ok (.txByte _) => .ok (s.hostRefused .reentrantTransmit)
  | .ok (.sendBuffer _ _) => .ok (s.hostRefused .reentrantTransmit)
  | .ok (.buildAndSend _) => .ok (s.hostRefused .reentrantTransmit)
  | .ok .tick => .ok (s.hostRefused .reentrantTransmit)
  | .ok .reset => .ok (s.hostRefused .reentrantTransmit)

/-- Several calls by host activity, in order. -/
def hostCalls : List Call → State → Op State
  | [], s => .ok s
  | c :: rest, s => do
    let s ← hostCall c s
    hostCalls rest s

/-- A window between two steps of a transmission: any time passes, and, unless interrupts are masked,
host activity makes its next batch of calls (R188, R243). -/
def hostWindow (s : State) : Op State :=
  let s := s.elapse
  if s.block.irqMasked then .ok s
  else
    match s.hostWork with
    | [] => .ok s
    | batch :: rest => hostCalls batch { s with hostWork := rest }

end Sys2Proof.Machine
end

