-- ==== Sys2Proof/Machine/Transmitter.lean ====
section
/-! DEFINITION. The Timed Bit Transmitter: TX_PREAMBLE (R180), TX_BYTE (R181), SEND_BUFFER (R182) and BUILD_AND_SEND (R183). -/

namespace Sys2Proof.Machine

/-- The preamble's levels: each is driven, and held for at least PREAMBLE_PHASE_TICKS from a read
taken after the drive (R180). -/
def preambleLoop : List Level → State → State
  | [], s => s
  | l :: rest, s =>
    let s := (s.driveUnmasked l).readTime
    preambleLoop rest (s.waitUntil (s.now + s.cfg.preamblePhaseTicks))

/-- TX_PREAMBLE as a step: the levels where PREAMBLE_ENABLE is true, and the gap always (R180). -/
def runPreamble (s : State) : State :=
  let s := if s.cfg.preambleEnable then preambleLoop preambleLevels s else s
  let s := s.readTime
  s.waitUntil (s.now + s.cfg.gapTicks)

/-- The slots of a character from slot `k` on: drive the level, wait for the next boundary, which is
measured from `t0` (R95, R181). -/
def slotLoop (b : Byte) : List Nat → State → Op State
  | [], s => .ok s
  | k :: rest, s => do
    let s := s.drive (slotLevel b k)
    let t0 ← readField .t0 s.block.t0
    slotLoop b rest (s.waitInCharacter (t0 + slotBoundary s.cfg (k + 1)))

/-- TX_BYTE as a step: one critical section for the whole character (R181, R244). Any time may pass
before EnterCritical; the read of `t0` comes at the instant of EnterCritical, so that the mask is held
for at most one character and EDGE_SLACK (R246, log 22). The start bit is driven within EDGE_SLACK of
`t0` (R189(a)). -/
def runTxByte (b : Byte) (s : State) : Op State := do
  let s := s.readTime.enterCritical
  let s := s.setT0 s.now
  let s ← slotLoop b (List.range charBits) (s.elapseUpTo s.cfg.edgeSlack)
  s.exitCritical

/-- The characters of a transmission, `i` being the index of the first one left: `tx_state` is BYTE(i)
from the start of character `i` to the start of the next, and host activity may run in between
(R38, R182, R188). -/
def sendChars : Nat → List Byte → State → Op State
  | _, [], s => .ok s
  | i, b :: rest, s => do
    let s ← runTxByte b (s.setTx (.byte i))
    let s ← hostWindow s
    sendChars (i + 1) rest s

/-- SEND_BUFFER as a procedure (R182). MODEL'S CHOICE: PREAMBLE is written at the tick of the call (of the
gate's read, in TICK), and IDLE at the tick of the final Drive(LOW); the spec times neither (log 23). -/
def runSendBuffer (buf : List Byte) (n : Nat) (s : State) : Op State := do
  s.requireIdle
  if buf.length < n then .error (.refuse .sendLengthBeyondBuffer)
  else
    let s := runPreamble (s.setTx .preamble)
    let s ← hostWindow s
    let s ← sendChars 0 (buf.take n) s
    return (s.driveUnmasked .low).setTx .idle

/-- BUILD_AND_SEND as a procedure: the frame is complete before the first level is driven (R183). -/
def runBuildAndSend (snap : List Half) (s : State) : Op State := do
  s.requireIdle
  let (s, frame) ← runBuildFrame snap s
  runSendBuffer frame frameSize s

/-- The operation TX_PREAMBLE, invoked directly: refused unless IDLE (R180). -/
def opTxPreamble (s : State) : Op (State × Return) := do
  s.requireIdle
  return (runPreamble s, .unit)

/-- The operation TX_BYTE, invoked directly: refused unless IDLE (R181). -/
def opTxByte (b : Byte) (s : State) : Op (State × Return) := do
  s.requireIdle
  let s ← runTxByte b s
  return (s, .unit)

/-- The operation SEND_BUFFER (R182). -/
def opSendBuffer (buf : List Byte) (n : Nat) (s : State) : Op (State × Return) := do
  let s ← runSendBuffer buf n s
  return (s, .unit)

/-- The operation BUILD_AND_SEND (R183). -/
def opBuildAndSend (snap : List Half) (s : State) : Op (State × Return) := do
  let s ← runBuildAndSend snap s
  return (s, .unit)

/-- Meaning of TX_PREAMBLE (R180). -/
def execTxPreamble (s : State) : Host.Outcome State Fault Refusal :=
  conclude s (opTxPreamble s)

/-- Meaning of TX_BYTE (R181). -/
def execTxByte (b : Byte) (s : State) : Host.Outcome State Fault Refusal :=
  conclude s (opTxByte b s)

/-- Meaning of SEND_BUFFER (R182). -/
def execSendBuffer (buf : List Byte) (n : Nat) (s : State) : Host.Outcome State Fault Refusal :=
  conclude s (opSendBuffer buf n s)

/-- Meaning of BUILD_AND_SEND (R183). -/
def execBuildAndSend (snap : List Half) (s : State) : Host.Outcome State Fault Refusal :=
  conclude s (opBuildAndSend snap s)

end Sys2Proof.Machine
end

