-- ==== Sys2Proof/Machine/PeriodicDriver.lean ====
section
/-! DEFINITION. The Periodic Driver: TICK (R220 to R222). -/

namespace Sys2Proof.Machine

/-- `last_send <- t; sent_any <- true`: the stamp of a completed TICK transmission (R40, R222). -/
def State.stamp (t : Nat) (s : State) : State :=
  { s with block.lastSend := some t, block.sentAny := true }

/-- TICK with the gate open: one snapshot, one frame, and the stamp read after it (R220, R222). -/
def runTickSend (s : State) : Op State := do
  let vs := s.snapDraw
  let s := s.useSnapDraw.setSnap vs
  let snap ← readField .snap s.block.snap
  let s ← runBuildAndSend snap s
  let s := s.readTime
  return s.stamp (counterAt s.cfg s.now)

/-- The operation TICK (R220). -/
def opTick (s : State) : Op (State × Return) := do
  s.requireIdle
  let s := s.readTime
  let isOpen ← s.gateOpen (counterAt s.cfg s.now)
  if isOpen then
    let s ← runTickSend s
    return (s, .unit)
  else return (s, .unit)

/-- Meaning of TICK (R220). -/
def execTick (s : State) : Host.Outcome State Fault Refusal :=
  conclude s (opTick s)

end Sys2Proof.Machine
end

