-- ==== Sys2Proof/Machine/ResetOp.lean ====
section
/-! DEFINITION. The operation RESET (R260). -/

namespace Sys2Proof.Machine

/-- The operation RESET: the line is driven to idle and the gate is cleared; the mask, the refusal mark
and the configuration keep their values (R260). `tx_state` is IDLE already, so its write is no
transition of R184 (log 21). -/
def opReset (s : State) : Op (State × Return) := do
  s.requireIdle
  let s := s.driveUnmasked .low
  return ({ s with block.txState := .idle, block.sentAny := false, block.lastSend := none }, .unit)

/-- Meaning of RESET (R260). -/
def execReset (s : State) : Host.Outcome State Fault Refusal :=
  conclude s (opReset s)

end Sys2Proof.Machine
end

