-- ==== Sys2Proof/Machine/Dispatch.lean ====
section
/-! DEFINITION. The dispatch: one arm for each operation of R104. -/

namespace Sys2Proof.Machine

def exec (i : Instr) (s : State) : Host.Outcome State Fault Refusal :=
  match i with
  | .crc8Byte acc b => Sys2Proof.Machine.execCrc8Byte acc b s
  | .crc8 buf length => Sys2Proof.Machine.execCrc8 buf length s
  | .pack values => Sys2Proof.Machine.execPack values s
  | .unpack payload => Sys2Proof.Machine.execUnpack payload s
  | .buildFrame snap => Sys2Proof.Machine.execBuildFrame snap s
  | .txPreamble => Sys2Proof.Machine.execTxPreamble s
  | .txByte b => Sys2Proof.Machine.execTxByte b s
  | .sendBuffer buf n => Sys2Proof.Machine.execSendBuffer buf n s
  | .buildAndSend snap => Sys2Proof.Machine.execBuildAndSend snap s
  | .tick => Sys2Proof.Machine.execTick s
  | .reset => Sys2Proof.Machine.execReset s

end Sys2Proof.Machine
end

