-- ==== Sys2Proof/Machine/Step.lean ====
section
/-! DEFINITION. One step of the machine: the caller's next call is taken, its selector decoded, and its operation run to completion (R10, R70, R241). -/

namespace Sys2Proof.Machine

/-- One step. With no call to come the block holds its state (R255, log 16); a reserved selector is
refused before any operand is checked (R99, R241). -/
def step (s : State) : Host.Outcome State Fault Refusal :=
  match s.fetch with
  | none => .next s
  | some (t, c) =>
    match decode c with
    | .ok i => exec i t
    | .error r => .next (t.markRefused r)

/-- `s` with the call of the table word `w`, its operand values zero, as the caller's next one, to be
made at once (log 1). SEL8 is the only format, so `nbits` is 8 (R98). -/
def State.withFetchWord (s : State) (nbits w : Nat) : State :=
  { s with calls := ⟨0, none, callOfWord (w % 2 ^ nbits)⟩ :: s.calls }

end Sys2Proof.Machine
end

