-- ==== Sys2Proof/Safety.lean ====
section
/-! DEFINITION. The terms that claims use: the line history and other views of the event log, the invariant of the states between operations, and what a good run is. -/

namespace Sys2Proof.Machine

/-! ### Views of the event log -/

/-- The drive that an event is, if it is one. -/
def Event.drive? : Event → Option (Nat × Level)
  | .drive t l => some (t, l)
  | .tx _ _ => none
  | .mask _ _ => none
  | .host _ _ => none

/-- The transmitter state that an event writes, if it writes one. -/
def Event.tx? : Event → Option TxState
  | .drive _ _ => none
  | .tx _ x => some x
  | .mask _ _ => none
  | .host _ _ => none

/-- The write of the interrupt mask that an event is, if it is one. -/
def Event.mask? : Event → Option (Nat × Bool)
  | .drive _ _ => none
  | .tx _ _ => none
  | .mask t on => some (t, on)
  | .host _ _ => none

/-- The answer to host activity that an event is, if it is one. -/
def Event.host? : Event → Option Return
  | .drive _ _ => none
  | .tx _ _ => none
  | .mask _ _ => none
  | .host _ r => some r

/-- The time of an event. -/
def Event.time : Event → Nat
  | .drive t _ => t
  | .tx t _ => t
  | .mask t _ => t
  | .host t _ => t

/-- The line history: the (time, level) pairs of every Drive, in program order (R191). -/
def lineHistory (es : List Event) : List (Nat × Level) := es.filterMap Event.drive?

/-- The levels driven, in order. -/
def levels (es : List Event) : List Level := (lineHistory es).map Prod.snd

/-- The writes of `tx_state`, in order. -/
def txTrace (es : List Event) : List TxState := es.filterMap Event.tx?

/-- The block's writes of the interrupt mask with their times, in order (R242). -/
def maskHistory (es : List Event) : List (Nat × Bool) := es.filterMap Event.mask?

/-- What host activity's own calls gave back, in order (R256). -/
def hostAnswers (es : List Event) : List Return := es.filterMap Event.host?

/-- An answer that says the call was refused (R21). -/
def isRefusal : Return → Bool
  | .none => false
  | .unit => false
  | .byte _ => false
  | .bytes _ => false
  | .halves _ => false
  | .refused _ => true

/-- One of host activity's own calls was refused (R41, R256). -/
def hostWasRefused (es : List Event) : Bool := (hostAnswers es).any isRefusal

/-- How many of `n` windows host activity runs in: all of them, or none while the mask is on (R243). -/
def windowsRun (masked : Bool) (n : Nat) : Nat := if masked then 0 else n

/-- Each EnterCritical, the first of a pair of writes of the mask, is followed by its ExitCritical at
most `bound` ticks later (R246). -/
def heldWithin (bound : Nat) : List (Nat × Bool) → Bool
  | [] => true
  | [_] => false
  | (a, _) :: (b, _) :: rest => decide (b ≤ a + bound) && heldWithin bound rest

/-- The times of the events never decrease, and all lie between `a` and `b`. -/
def timesWithin (a b : Nat) : List Event → Bool
  | [] => decide (a ≤ b)
  | e :: rest => decide (a ≤ e.time) && timesWithin e.time b rest

/-- The transitions of `tx_state` that R184 allows. -/
def txStepOk : TxState → TxState → Bool
  | .idle, .preamble => true
  | .preamble, .byte i => decide (i = 0)
  | .byte i, .byte j => decide (j = i + 1)
  | .byte _, .idle => true
  | .preamble, .idle => true
  | _, _ => false

/-- A sequence of `tx_state` writes starting at `x` takes transitions of R184 only. -/
def txPathOk : TxState → List TxState → Bool
  | _, [] => true
  | x, y :: rest => txStepOk x y && txPathOk y rest

/-- Where the events leave the interrupt mask and its saved value: each EnterCritical (mask on) is
followed by exactly one ExitCritical, which puts back the mask found, and lines are driven inside a
critical section only by characters. `held` is the mask found by an open EnterCritical. -/
def maskOk (found : Bool) : Option Bool → List Event → Bool
  | held, [] => held.isNone
  | none, .mask _ on :: rest => on && maskOk found (some found) rest
  | some m, .mask _ on :: rest => (on == m) && maskOk found none rest
  | none, .drive _ _ :: rest => maskOk found none rest
  | none, .tx _ _ :: rest => maskOk found none rest
  | none, .host _ _ :: rest => !found && maskOk found none rest
  | some m, .drive _ _ :: rest => maskOk found (some m) rest
  | some _, .tx _ _ :: _ => false
  | some _, .host _ _ :: _ => false

/-! ### The states between operations -/

/-- No transient field holds a value (R32). -/
abbrev Block.noTransients (b : Block) : Prop :=
  b.irqSaved = none ∧ b.crcAcc = none ∧ b.cursor = none ∧ b.frame = none ∧ b.snap = none ∧ b.t0 = none

/-- `last_send` holds a value just where `sent_any` is true (R40). -/
abbrev Block.gateWritten (b : Block) : Prop := b.lastSend.isSome = b.sentAny

/-- What holds of every state between two operations: IDLE (R39), the line at its idle level (R35,
R72), no transient value (R32), `last_send` written just where it may be read (R40). -/
abbrev Block.betweenOps (b : Block) : Prop :=
  b.txState = .idle ∧ b.line = .low ∧ b.noTransients ∧ b.gateWritten

/-! ### Which operations are refused (R241) -/

/-- The six operations that transmit, gate or reset (R256). -/
def transmits : Instr → Bool
  | .crc8Byte _ _ => false
  | .crc8 _ _ => false
  | .pack _ => false
  | .unpack _ => false
  | .buildFrame _ => false
  | .txPreamble => true
  | .txByte _ => true
  | .sendBuffer _ _ => true
  | .buildAndSend _ => true
  | .tick => true
  | .reset => true

/-- The reason an operation's operands give for refusing it, by the table of R241. -/
def operandRefusal : Instr → Option RefuseReason
  | .crc8Byte _ _ => none
  | .crc8 buf length => if buf.length < length then some .crcLengthBeyondBuffer else none
  | .pack values => if values.length ≠ 16 then some .wrongChannelCount else none
  | .unpack payload => if payload.length ≠ 22 then some .wrongPayloadSize else none
  | .buildFrame snap => if snap.length ≠ 16 then some .wrongChannelCount else none
  | .txPreamble => none
  | .txByte _ => none
  | .sendBuffer buf n => if buf.length < n then some .sendLengthBeyondBuffer else none
  | .buildAndSend snap => if snap.length ≠ 16 then some .wrongChannelCount else none
  | .tick => none
  | .reset => none

/-- The refusal of R241 for an operation invoked with the transmitter in state `x`: the re-entrancy
check comes before the operand checks. -/
def refusalOf (i : Instr) (x : TxState) : Option RefuseReason :=
  if transmits i ∧ x ≠ .idle then some .reentrantTransmit else operandRefusal i

/-- The refused state of R21 and R41: the mark and the reason, and nothing else. -/
def refusedFrom (s : State) (r : RefuseReason) : State :=
  { s with block := { s.block with refused := true }, ret := .refused r }

/-- The completed state of an operation that touches no persistent state: the result, and no transient
value (R32). -/
def completedFrom (s : State) (r : Return) : State :=
  { s with block := s.block.clearTransients, ret := r }

/-! ### Waveforms (R90, R91, R94) -/

/-- The level of slot `k` of a character, in the words of R91: the start bit is HIGH, data bit `d` is
HIGH when it is 0, the stop bit is LOW. -/
def slotShape (b : Byte) (k : Nat) : Level :=
  if k = 0 then .high
  else if k = 9 then .low
  else if b.getLsbD (k - 1) then .low else .high

/-- The ten levels of a character (R90). -/
def charShape (b : Byte) : List Level := (List.range 10).map (slotShape b)

/-- The levels of the preamble that a configuration sends (R94). -/
def preambleShape (c : Config) : List Level :=
  if c.preambleEnable then [.high, .low, .high, .low] else []

/-- The levels of a whole transmission of `bytes` (R96). -/
def transmissionShape (c : Config) (bytes : List Byte) : List Level :=
  preambleShape c ++ bytes.flatMap charShape ++ [.low]

/-- The least time a transmission of `n` bytes takes (R96, R277). -/
def nominalTicks (c : Config) (n : Nat) : Nat :=
  (preambleShape c).length * c.preamblePhaseTicks + c.gapTicks + n * (10 * c.fTick / baud)

/-! ### The events of a transmission (R38, R182, R188) -/

/-- The answers of one window, at one time: the host's next batch is answered call by call, and nothing
happens while the mask is on (R243, log 12). -/
def isWindow (found : Bool) (work : List (List Call)) (es : List Event) : Prop :=
  ∃ (t : Nat) (rs : List Return), es = rs.map (Event.host t) ∧
    rs.length = if found then 0 else (work.headD []).length

/-- The events of character `i`: `tx_state` is written, the mask is set, the ten slots are driven, and the
mask found is put back (R38, R181, R182). -/
def charEvents (found : Bool) (i : Nat) (b : Byte) (written on : Nat) (slot : Nat → Nat) (off : Nat) :
    List Event :=
  [.tx written (.byte i), .mask on true] ++
    (List.range 10).map (fun k => .drive (slot k) (slotShape b k)) ++ [.mask off found]

/-- The events of the characters from index `i` on, with a window after each (R182, R188). -/
def isCharacters (found : Bool) : Nat → List (List Call) → List Byte → List Event → Prop
  | _, _, [], es => es = []
  | i, work, b :: rest, es =>
    ∃ (written on off : Nat) (slot : Nat → Nat) (window more : List Event),
      es = charEvents found i b written on slot off ++ window ++ more ∧
      isWindow found work window ∧ isCharacters found (i + 1) work.tail rest more

/-- The events of a whole transmission in their order: PREAMBLE is written, the preamble's levels are
driven, the window after the gap, the characters, the final Drive(LOW), and IDLE is written (R182). -/
def isTransmission (c : Config) (found : Bool) (work : List (List Call)) (bytes : List Byte)
    (es : List Event) : Prop :=
  ∃ (first last done : Nat) (pre : List Nat) (window chars : List Event),
    es = [.tx first .preamble] ++ List.zipWith Event.drive pre (preambleShape c) ++ window ++ chars ++
      [.drive last .low, .tx done .idle] ∧
    pre.length = (preambleShape c).length ∧ isWindow found work window ∧
    isCharacters found 0 work.tail bytes chars

/-- The times of a transmission of `bytes` between `a` and `b` (R96, R189): the preamble's levels at `pre`,
each held for its phase, and the gap; for each byte `i` the ten slots of its character at `slot i`, within
EDGE_SLACK of their boundaries from `start i`, where the mask is set, and the mask put back at `stop i`,
within EDGE_SLACK of the last boundary; then the next character; and the idle level at `last`. -/
def keepsTimeBounds (c : Config) (found : Bool) (a b : Nat) (bytes : List Byte) (es : List Event) : Prop :=
  ∃ (pre start stop : Nat → Nat) (slot : Nat → Nat → Nat) (last : Nat),
    lineHistory es =
      (if c.preambleEnable then [(pre 0, .high), (pre 1, .low), (pre 2, .high), (pre 3, .low)] else []) ++
      (List.range bytes.length).flatMap (fun i =>
        (List.range 10).map (fun k => (slot i k, slotShape (bytes.getD i 0#8) k))) ++
      [(last, .low)] ∧
    maskHistory es =
      (List.range bytes.length).flatMap (fun i => [(start i, true), (stop i, found)]) ∧
    (c.preambleEnable = true → a ≤ pre 0 ∧
      (∀ j : Nat, j < 3 → pre j + c.preamblePhaseTicks ≤ pre (j + 1)) ∧
      (bytes ≠ [] → pre 3 + c.preamblePhaseTicks + c.gapTicks ≤ start 0) ∧
      (bytes = [] → pre 3 + c.preamblePhaseTicks + c.gapTicks ≤ last)) ∧
    (bytes ≠ [] → a + c.gapTicks ≤ start 0) ∧
    (bytes = [] → a + c.gapTicks ≤ last) ∧
    (∀ i k : Nat, i < bytes.length → k < 10 → start i + k * c.fTick / 420000 ≤ slot i k ∧
      slot i k ≤ start i + k * c.fTick / 420000 + c.edgeSlack) ∧
    (∀ i : Nat, i < bytes.length → start i + 10 * c.fTick / 420000 ≤ stop i ∧
      stop i ≤ start i + 10 * c.fTick / 420000 + c.edgeSlack) ∧
    (∀ i : Nat, i + 1 < bytes.length → stop i ≤ start (i + 1)) ∧
    (∀ i : Nat, i + 1 = bytes.length → stop i ≤ last) ∧ last ≤ b

/-! ### The two outcomes of TICK (R220) -/

/-- TICK, with the gate read open at `r`: the frame built of one answer of the channel store, and no more,
is sent, in at least the nominal time, and the gate is written (R66, R67, R220, R222). Nothing else of the
block changes but the refusal mark, which host activity's own calls may set (R41, R256). -/
def tickSends (r : Nat) (s t : State) (es : List Event) : Prop :=
  (∃ (snap : List Half) (u : State) (f : List Byte), snap.length = 16 ∧
    (∀ v rest, s.snapInputs = v :: rest → snap = v.toList) ∧
    exec (.buildFrame snap) s = .next u ∧ u.ret = .bytes f ∧
    levels es = transmissionShape s.cfg f) ∧
  t.snapInputs = s.snapInputs.tail ∧ r + nominalTicks s.cfg 26 ≤ t.now ∧
  t.block = { s.block.clearTransients with
    line := .low, sentAny := true, lastSend := t.block.lastSend, refused := t.block.refused } ∧
  t.block.lastSend.isSome = true ∧
  t.block.refused = (s.block.refused || hostWasRefused es) ∧
  (s.hostWork = [] ∨ s.block.irqMasked = true → t.block.refused = s.block.refused)

/-- TICK, with the gate read closed: the time is read, and nothing else happens (R220). -/
def tickHolds (s t : State) (es : List Event) : Prop :=
  es = [] ∧ t.block = s.block.clearTransients ∧ t.hostWork = s.hostWork ∧
  t.snapInputs = s.snapInputs

/-! ### Several steps -/

/-- `n` steps one after the other, where each answers a next state. -/
def runSteps : Nat → State → Option State
  | 0, s => some s
  | n + 1, s =>
    match step s with
    | .next t => runSteps n t
    | .fault _ => none
    | .refused _ => none

/-! ### Polynomials over GF(2) (R122) -/

/-- A byte as a polynomial, bit `i` being the coefficient of `x^i` (R122). -/
noncomputable def bytePoly (b : Byte) : Polynomial (ZMod 2) :=
  ∑ i ∈ Finset.range 8, if b.getLsbD i then Polynomial.X ^ i else 0

/-- The message polynomial: the bytes as one bit string, the most significant bit of each byte first,
the first bit being the highest power (R122). -/
noncomputable def messagePoly (bytes : List Byte) : Polynomial (ZMod 2) :=
  bytes.foldl (fun p b => p * Polynomial.X ^ 8 + bytePoly b) 0

/-- G(x) = x^8 + x^7 + x^6 + x^4 + x^2 + 1 (R122). -/
noncomputable def crcGenerator : Polynomial (ZMod 2) :=
  Polynomial.X ^ 8 + Polynomial.X ^ 7 + Polynomial.X ^ 6 + Polynomial.X ^ 4 + Polynomial.X ^ 2 + 1

/-! ### Good runs -/

/-- Nothing went wrong so far: no call was refused (R41). -/
abbrev State.good (s : State) : Prop := s.block.refused = false

/-- The condition under which every bit meets BIT_TOLERANCE:
(1 + EDGE_SLACK) / F_TICK ≤ BIT_TOLERANCE * BIT_US / 1000000 (R190). Where no tolerance is set there is
none to meet. -/
def meetsBitTolerance (c : Config) : Bool :=
  match c.bitTolerance with
  | none => true
  | some tol => decide ((1 + c.edgeSlack : Rat) / c.fTick ≤ tol * bitUs / 1000000)

end Sys2Proof.Machine
end

