-- ==== Sys2Proof/Laws/PerInstr.lean ====
section
/-! SUPPORT. What is said of every operation one by one: its call decodes back to it. -/

namespace Sys2Proof.Laws.DecodeEncode

/-- The call that encodes an operation decodes to that operation, whatever its operands are (R98,
R104). -/
def Statement (i : Instr) : Prop := decode (encode i) = .ok i

theorem crc8Byte (acc b : Byte) : Statement (.crc8Byte acc b) := rfl
theorem crc8 (buf : List Byte) (length : Nat) : Statement (.crc8 buf length) := rfl
theorem pack (values : List Half) : Statement (.pack values) := rfl
theorem unpack (payload : List Byte) : Statement (.unpack payload) := rfl
theorem buildFrame (snap : List Half) : Statement (.buildFrame snap) := rfl
theorem txPreamble : Statement .txPreamble := rfl
theorem txByte (b : Byte) : Statement (.txByte b) := rfl
theorem sendBuffer (buf : List Byte) (n : Nat) : Statement (.sendBuffer buf n) := rfl
theorem buildAndSend (snap : List Half) : Statement (.buildAndSend snap) := rfl
theorem tick : Statement .tick := rfl
theorem reset : Statement .reset := rfl

end Sys2Proof.Laws.DecodeEncode
end

