-- ==== Sys2Proof/Certificates/Slice0/Obligations.lean ====
section
/-! DEFINITION. The statements for the provers, in the order of spec/: encoding, checksum, packer, frame, transmitter, driver, reset, and the whole machine. -/

open Sys2Proof
open Sys2Proof.Machine

/-! ### Encoding (30_encoding.md) -/

/-- Each row of R104 decodes to its operation with its own operand values. -/
def Obligations.TableSelectorsDecode : Prop :=
  ∀ a : Operands,
    decode ⟨0x01#8, a⟩ = .ok (.crc8Byte a.acc a.b) ∧
    decode ⟨0x02#8, a⟩ = .ok (.crc8 a.buf a.len) ∧
    decode ⟨0x10#8, a⟩ = .ok (.pack a.values) ∧
    decode ⟨0x11#8, a⟩ = .ok (.unpack a.buf) ∧
    decode ⟨0x20#8, a⟩ = .ok (.buildFrame a.values) ∧
    decode ⟨0x30#8, a⟩ = .ok .txPreamble ∧
    decode ⟨0x31#8, a⟩ = .ok (.txByte a.b) ∧
    decode ⟨0x32#8, a⟩ = .ok (.sendBuffer a.buf a.len) ∧
    decode ⟨0x40#8, a⟩ = .ok (.buildAndSend a.values) ∧
    decode ⟨0x50#8, a⟩ = .ok .tick ∧
    decode ⟨0x60#8, a⟩ = .ok .reset

/-- Decoding the encoded call of any operation, with any operand values, gives it back. -/
def Obligations.EncodedOperationsDecodeBack : Prop :=
  ∀ i : Instr, Sys2Proof.Laws.DecodeEncode.Statement i

/-- Every call either decodes to an operation whose selector is the call's whole selector byte, or is
refused as reserved and has the selector of no operation: the decoder drops no selector bit. -/
def Obligations.DecodeReadsWholeSelector : Prop :=
  ∀ c : Call,
    (∃ i, decode c = .ok i ∧ selector i = c.sel ∧
      (∀ d : Call, d.sel = c.sel → ∃ j, decode d = .ok j ∧ selector j = selector i)) ∨
    (decode c = .error .reservedSelector ∧ ∀ i : Instr, selector i ≠ c.sel)

/-- A call with a selector that no row of R104 has is refused as ReservedSelector (R99). MODEL'S CHOICES:
the refusal is a next state in which only the mark and the report change (R21, R41; log 3), it takes no
time (log 24), and the state it is taken in is the one after the call's arrival (log 1). -/
def Obligations.ReservedSelectorIsRefused : Prop :=
  ∀ (s t : State) (c : Call), s.fetch = some (t, c) →
    c.sel ∉ [0x01#8, 0x02#8, 0x10#8, 0x11#8, 0x20#8, 0x30#8, 0x31#8, 0x32#8, 0x40#8, 0x50#8, 0x60#8] →
    step s = .next (refusedFrom t .reservedSelector)

/-- Step runs the operation that the caller's next call decodes to, in the state that the fetch leaves:
the call is taken from the queue, time has reached the call's own time, and the interrupt mask is as
the host has set it. MODEL'S CHOICES: the queue of arrivals with their times (log 1) and the host's mask
coming with the arrival (log 20). -/
def Obligations.StepRunsDecodedCall : Prop :=
  ∀ (s : State) (a : Arrival) (rest : List Arrival) (i : Instr), s.calls = a :: rest →
    decode a.call = .ok i →
    step s = exec i { s with
      calls := rest, now := max s.now a.notBefore,
      block := { s.block with irqMasked := a.hostMask.getD s.block.irqMasked } }

/-- MODEL'S CHOICE (log 16): with no call to come, a step holds the state, as R255 says of the block. -/
def Obligations.StepWithoutCallHolds : Prop :=
  ∀ s : State, s.calls = [] → step s = .next s

/-! ### Checksum Engine (40_checksum.md) -/

/-- CRC8_BYTE completes on all operands; its result is eight of the bit steps of R120 on `acc ^ b`, and
no persistent state changes. MODEL'S CHOICE: it takes no time (log 24). -/
def Obligations.Crc8ByteIsEightBitSteps : Prop :=
  ∀ (acc b : Byte) (s : State),
    exec (.crc8Byte acc b) s = .next (completedFrom s (.byte
      ((fun a : Byte => if a.getLsbD 7 then (a <<< 1) ^^^ 0xD5#8 else a <<< 1)^[8] (acc ^^^ b))))

/-- The byte step is linear over GF(2) and a bijection on bytes (R120).
The spec marks this, in R120, as its own inference. -/
def Obligations.Crc8ByteIsLinearBijection : Prop :=
  (∀ x y : Byte, crcByte 0#8 (x ^^^ y) = crcByte 0#8 x ^^^ crcByte 0#8 y) ∧
  Function.Bijective (crcByte 0#8) ∧
  ∀ acc b : Byte, crcByte acc b = crcByte 0#8 (acc ^^^ b)

/-- CRC8 takes the byte steps over the first `length` bytes in increasing index order, from 0, with no
final XOR; a length beyond the buffer is refused (R121). MODEL'S CHOICE: neither takes time (log 24). -/
def Obligations.Crc8FoldsTheRange : Prop :=
  ∀ (buf : List Byte) (length : Nat) (s : State),
    (length ≤ buf.length → ∃ c : Byte, exec (.crc8 buf length) s = .next (completedFrom s (.byte c)) ∧
      c = (buf.take length).foldl (fun acc b => crcByte acc b) 0x00#8) ∧
    (buf.length < length →
      exec (.crc8 buf length) s = .next (refusedFrom s .crcLengthBeyondBuffer))

/-- CRC8 equals the remainder of polynomial division over GF(2): the result's bits are the coefficients
of `M(x) * x^8 mod G(x)` (R122).
The spec marks R122 as its own inference. -/
def Obligations.Crc8IsPolynomialRemainder : Prop :=
  ∀ (buf : List Byte) (length : Nat) (s : State), length ≤ buf.length →
    ∃ (t : State) (c : Byte), exec (.crc8 buf length) s = .next t ∧ t.ret = .byte c ∧
      bytePoly c = Polynomial.modByMonic (messagePoly (buf.take length) * Polynomial.X ^ 8) crcGenerator

/-- Linearity: the CRC of the bytewise XOR of two buffers of equal length is the XOR of their CRCs
(R123(a)).
The spec marks R123(a) as its own inference. -/
def Obligations.Crc8IsLinear : Prop :=
  ∀ (x y : List Byte) (s : State), x.length = y.length →
    ∃ (t u v : State) (a b : Byte),
      exec (.crc8 x x.length) s = .next t ∧ t.ret = .byte a ∧
      exec (.crc8 y y.length) s = .next u ∧ u.ret = .byte b ∧
      exec (.crc8 (List.zipWith (· ^^^ ·) x y) x.length) s = .next v ∧ v.ret = .byte (a ^^^ b)

/-- Zero residue: a buffer followed by its own CRC has CRC 0 (R123(b)).
The spec marks R123(b) as its own inference. -/
def Obligations.Crc8ResidueIsZero : Prop :=
  ∀ (d : List Byte) (s : State), ∃ (t u : State) (c : Byte),
    exec (.crc8 d d.length) s = .next t ∧ t.ret = .byte c ∧
    exec (.crc8 (d ++ [c]) (d.length + 1)) s = .next u ∧ u.ret = .byte 0x00#8

/-- Single-byte corruption: changing any one byte of the covered range to any other value always changes
the result (R123(c)).
The spec marks R123(c) as its own inference. -/
def Obligations.Crc8DetectsSingleByteChange : Prop :=
  ∀ (d : List Byte) (i : Nat) (b : Byte) (s : State), i < d.length → d[i]? ≠ some b →
    ∃ (t u : State) (c c' : Byte), exec (.crc8 d d.length) s = .next t ∧ t.ret = .byte c ∧
      exec (.crc8 (d.set i b) d.length) s = .next u ∧ u.ret = .byte c' ∧ c ≠ c'

/-! ### Channel Packer (41_packer.md, 30_encoding.md section 2) -/

/-- Bit `j` of channel `i` is stream bit `11*i + j` of PACK's 22 bytes, and stands at frame byte
`3 + (11*i + j) div 8` of BUILD_FRAME's (R86). Both operations complete and change no persistent
state. MODEL'S CHOICE: they take no time (log 24). -/
def Obligations.PackPlacesEveryChannelBit : Prop :=
  ∀ (values : List Half) (s : State), values.length = 16 →
    ∃ p f : List Byte,
      exec (.pack values) s = .next (completedFrom s (.bytes p)) ∧ p.length = 22 ∧
      exec (.buildFrame values) s = .next (completedFrom s (.bytes f)) ∧
      ∀ i j : Nat, i < 16 → j < 11 →
        (p.getD ((11 * i + j) / 8) 0#8).getLsbD ((11 * i + j) % 8) = (values.getD i 0#16).getLsbD j ∧
        (f.getD (3 + (11 * i + j) / 8) 0#8).getLsbD ((11 * i + j) % 8) = (values.getD i 0#16).getLsbD j

/-- UNPACK recovers channel `i` as the sum over `j` of bit `11*i + j` of the payload times `2^j`,
zero-extended to 16 bits (R87); it changes no persistent state. MODEL'S CHOICE: it takes no time (log 24).
The spec marks R87 as its own inference. -/
def Obligations.UnpackSumsTheFieldBits : Prop :=
  ∀ (payload : List Byte) (s : State), payload.length = 22 →
    ∃ vs : List Half, exec (.unpack payload) s = .next (completedFrom s (.halves vs)) ∧
      vs.length = 16 ∧
      ∀ i : Nat, i < 16 → (vs.getD i 0#16).toNat = ∑ j ∈ Finset.range 11,
        (((payload.getD ((11 * i + j) / 8) 0#8).toNat >>> ((11 * i + j) % 8)) &&& 1) <<< j

/-- PACK truncates: packing the values mod 2048 gives the same outcome (R142). -/
def Obligations.PackTruncatesToElevenBits : Prop :=
  ∀ (values : List Half) (s : State), values.length = 16 →
    exec (.pack values) s = exec (.pack (values.map fun v => v % 2048#16)) s ∧
    ∃ t, exec (.pack values) s = .next t

/-- Round trip: unpacking what PACK answers gives each value mod 2048, so the values themselves where all
are in [0, 2047] (R143).
The spec marks R143 as its own inference. -/
def Obligations.UnpackInvertsPack : Prop :=
  ∀ (values : List Half) (s : State), values.length = 16 →
    ∃ (t u : State) (p : List Byte) (vs : List Half),
      exec (.pack values) s = .next t ∧ t.ret = .bytes p ∧
      exec (.unpack p) s = .next u ∧ u.ret = .halves vs ∧
      vs = values.map (fun v => v % 2048#16) ∧
      ((∀ v ∈ values, v.toNat ≤ 2047) → vs = values)

/-- Bijection: every 22-byte payload is packed from exactly one array of 16 values in [0, 2047], the one
that UNPACK answers (R144).
The spec marks R144 as its own inference. -/
def Obligations.PackIsBijectionOntoPayloads : Prop :=
  ∀ (p : List Byte) (s : State), p.length = 22 →
    ∃ (u : State) (vs : List Half), exec (.unpack p) s = .next u ∧ u.ret = .halves vs ∧
      vs.length = 16 ∧ (∀ v ∈ vs, v.toNat ≤ 2047) ∧
      (∃ t, exec (.pack vs) s = .next t ∧ t.ret = .bytes p) ∧
      ∀ ws : List Half, ws.length = 16 → (∀ w ∈ ws, w.toNat ≤ 2047) →
        (∃ t, exec (.pack ws) s = .next t ∧ t.ret = .bytes p) → ws = vs

/-- Fixed sizes: PACK always returns exactly 22 bytes; BUILD_FRAME exactly 26, with byte 1 equal to 24
and byte 2 the frame type 0x16 (R145, R162). -/
def Obligations.PackAndFrameSizesAreFixed : Prop :=
  (∀ (values : List Half) (s t : State) (p : List Byte),
    exec (.pack values) s = .next t → t.ret = .bytes p → p.length = 22) ∧
  (∀ (snap : List Half) (s t : State) (f : List Byte),
    exec (.buildFrame snap) s = .next t → t.ret = .bytes f →
    f.length = 26 ∧ f[1]? = some 24#8 ∧ f[2]? = some 0x16#8)

/-! ### Frame Builder (42_frame_builder.md, 30_encoding.md section 1) -/

/-- The frame's layout: ADDR, 0x18, 0x16, the 22 bytes that PACK answers, and the CRC8 of the 23 bytes
from the type byte on (R80, R84, R85); the operation changes no persistent state. MODEL'S CHOICE: it
takes no time (log 24). -/
def Obligations.FrameHasTheSpecifiedLayout : Prop :=
  ∀ (snap : List Half) (s : State), snap.length = 16 →
    ∃ (f p : List Byte) (c : Byte),
      exec (.buildFrame snap) s = .next (completedFrom s (.bytes f)) ∧
      exec (.pack snap) s = .next (completedFrom s (.bytes p)) ∧
      exec (.crc8 ((f.drop 2).take 23) 23) s = .next (completedFrom s (.byte c)) ∧
      f.length = 26 ∧ f[0]? = some s.cfg.addr ∧ f[1]? = some 0x18#8 ∧ f[2]? = some 0x16#8 ∧
      (∀ k : Nat, k < 22 → f[3 + k]? = p[k]?) ∧ p.length = 22 ∧ f[25]? = some c

/-- Receiver check: CRC8 over bytes 2..25 of a built frame is 0, and over bytes 2..24 it is byte 25
(R163).
The spec marks R163 as its own inference. -/
def Obligations.ReceiverCheckOfFrameIsZero : Prop :=
  ∀ (snap : List Half) (s t : State) (f : List Byte),
    exec (.buildFrame snap) s = .next t → t.ret = .bytes f →
    (∃ u, exec (.crc8 ((f.drop 2).take 24) 24) s = .next u ∧ u.ret = .byte 0x00#8) ∧
    (∃ u c, exec (.crc8 ((f.drop 2).take 23) 23) s = .next u ∧ u.ret = .byte c ∧ f[25]? = some c)

/-- Frames built under two configurations agree in bytes 1..25: only byte 0 depends on ADDR (R81). MODEL'S
CHOICE: the operation takes no time (log 24). -/
def Obligations.FrameTailIgnoresTheAddress : Prop :=
  ∀ (snap : List Half) (s s' : State), snap.length = 16 →
    ∃ f f' : List Byte, exec (.buildFrame snap) s = .next (completedFrom s (.bytes f)) ∧
      exec (.buildFrame snap) s' = .next (completedFrom s' (.bytes f')) ∧
      f.drop 1 = f'.drop 1 ∧ (f = f' ↔ s.cfg.addr = s'.cfg.addr)

/-! ### Timed Bit Transmitter (43_transmitter.md) -/

/-- TX_BYTE, invoked while IDLE: interrupts are masked, the ten levels of R90 and R91 are driven, slot `k`
within EDGE_SLACK of `t0 + E(k)`, the stop bit is waited out, and the mask found is put back; nothing
else of the block changes but the line (R181, R189(a), R245), and no snapshot is read. MODEL'S CHOICES: the
mask is set at the very time `t0` (log 22), the host does not change it meanwhile (log 20), and the
operation returns at the tick of ExitCritical (log 24). -/
def Obligations.TxByteDrivesOneCharacter : Prop :=
  ∀ (b : Byte) (s : State), s.block.txState = .idle →
    ∃ (t : State) (t0 : Nat) (at_ : Nat → Nat), exec (.txByte b) s = .next t ∧ s.now ≤ t0 ∧
      t.log = s.log ++ [.mask t0 true] ++
        (List.range 10).map (fun k => Event.drive (at_ k) (slotShape b k)) ++
        [.mask t.now s.block.irqMasked] ∧
      (∀ k : Nat, k < 10 → t0 + k * s.cfg.fTick / 420000 ≤ at_ k ∧
        at_ k ≤ t0 + k * s.cfg.fTick / 420000 + s.cfg.edgeSlack) ∧
      t0 + 10 * s.cfg.fTick / 420000 ≤ t.now ∧
      t.now ≤ t0 + 10 * s.cfg.fTick / 420000 + s.cfg.edgeSlack ∧
      t.block = { s.block.clearTransients with line := .low } ∧
      t.ret = .unit ∧ t.cfg = s.cfg ∧ t.calls = s.calls ∧ t.hostWork = s.hostWork ∧
      t.snapInputs = s.snapInputs

/-- The slots of a character meet BIT_TOLERANCE where the condition of R190 holds: each slot lasts
`E(k+1) - E(k)` ticks within EDGE_SLACK, and deviates from the exact bit period F_TICK / BAUD by at most
BIT_TOLERANCE of it. MODEL'S CHOICE: `at_ 10`, at which the stop bit's period ends, is the time of the
return (log 24).
The spec marks R190 as its own inference. -/
def Obligations.SlotDurationsMeetTolerance : Prop :=
  ∀ (b : Byte) (s t : State) (at_ : Nat → Nat) (tol : Rat), s.cfg.wf →
    exec (.txByte b) s = .next t → s.block.txState = .idle →
    lineHistory t.log = lineHistory s.log ++ (List.range 10).map (fun k => (at_ k, slotShape b k)) →
    at_ 10 = t.now →
    ∀ k : Nat, k < 10 →
      ((at_ (k + 1) : Int) - at_ k -
        (((k + 1) * s.cfg.fTick / 420000 : Nat) - (k * s.cfg.fTick / 420000 : Nat) : Int)).natAbs ≤
          s.cfg.edgeSlack ∧
      (s.cfg.bitTolerance = some tol → meetsBitTolerance s.cfg = true →
        |((at_ (k + 1) : Rat) - at_ k) - (s.cfg.fTick : Rat) / 420000| ≤
          tol * ((s.cfg.fTick : Rat) / 420000))

/-- TX_PREAMBLE, invoked while IDLE: the levels of R94 where PREAMBLE_ENABLE is true, each held for at
least PREAMBLE_PHASE_TICKS, then the gap of at least GAP_TICKS (R180, R189(b)); `tx_state` stays IDLE, no
interrupt is masked and no snapshot is read. -/
def Obligations.TxPreambleHoldsLevelsAndGap : Prop :=
  ∀ s : State, s.block.txState = .idle →
    ∃ (t : State) (at_ : Nat → Nat), exec .txPreamble s = .next t ∧
      t.log = s.log ++
        (if s.cfg.preambleEnable then
          [Event.drive (at_ 0) .high, .drive (at_ 1) .low, .drive (at_ 2) .high, .drive (at_ 3) .low]
        else []) ∧
      (s.cfg.preambleEnable = true →
        s.now ≤ at_ 0 ∧ at_ 0 + s.cfg.preamblePhaseTicks ≤ at_ 1 ∧
        at_ 1 + s.cfg.preamblePhaseTicks ≤ at_ 2 ∧ at_ 2 + s.cfg.preamblePhaseTicks ≤ at_ 3 ∧
        at_ 3 + s.cfg.preamblePhaseTicks + s.cfg.gapTicks ≤ t.now) ∧
      s.now + s.cfg.gapTicks ≤ t.now ∧
      t.block = { s.block.clearTransients with
        line := if s.cfg.preambleEnable then .low else s.block.line } ∧
      t.ret = .unit ∧ t.cfg = s.cfg ∧ t.calls = s.calls ∧ t.hostWork = s.hostWork ∧
      t.snapInputs = s.snapInputs

/-- SEND_BUFFER, invoked while IDLE with `n` within the buffer: the preamble, the first `n` bytes as
characters in index order, and the idle level are driven, and `tx_state` runs PREAMBLE, BYTE(0) to
BYTE(n-1), IDLE (R182, R184). It takes at least the nominal time (R189, and R277, which the spec marks
as its own inference); the gate is as before and no snapshot is read. The refusal mark is set just where
it was set before or a call of host activity was refused (R41). MODEL'S CHOICES: the mask is as before
because the host changes it between operations only (log 20), and host activity's calls are made in the
windows of log 12. -/
def Obligations.SendBufferSendsTheBytes : Prop :=
  ∀ (buf : List Byte) (n : Nat) (s : State), s.block.txState = .idle → n ≤ buf.length →
    ∃ (t : State) (es : List Event), exec (.sendBuffer buf n) s = .next t ∧ t.log = s.log ++ es ∧
      levels es = transmissionShape s.cfg (buf.take n) ∧
      txTrace es = .preamble :: (List.range n).map TxState.byte ++ [.idle] ∧
      s.now + nominalTicks s.cfg n ≤ t.now ∧
      t.block = { s.block.clearTransients with line := .low, refused := t.block.refused } ∧
      t.block.refused = (s.block.refused || hostWasRefused es) ∧
      (s.hostWork = [] ∨ s.block.irqMasked = true → t.block.refused = s.block.refused) ∧
      t.ret = .unit ∧ t.cfg = s.cfg ∧ t.calls = s.calls ∧ t.snapInputs = s.snapInputs

/-- BUILD_AND_SEND, invoked while IDLE with 16 values: it sends the 26 bytes that BUILD_FRAME answers
(R183), in at least the nominal time (R189, and R277, which the spec marks as its own inference), and
does not write the gate or read a snapshot. The refusal mark is set just where it was set before or a call
of host activity was refused (R41). MODEL'S CHOICES: the mask is as before because the host changes it
between operations only (log 20), and host activity's calls are made in the windows of log 12. -/
def Obligations.BuildAndSendSendsTheFrame : Prop :=
  ∀ (snap : List Half) (s : State), s.block.txState = .idle → snap.length = 16 →
    ∃ (t u : State) (es : List Event) (f : List Byte), exec (.buildAndSend snap) s = .next t ∧
      exec (.buildFrame snap) s = .next u ∧ u.ret = .bytes f ∧
      t.log = s.log ++ es ∧ levels es = transmissionShape s.cfg f ∧
      txTrace es = .preamble :: (List.range 26).map TxState.byte ++ [.idle] ∧
      s.now + nominalTicks s.cfg 26 ≤ t.now ∧
      t.block = { s.block.clearTransients with line := .low, refused := t.block.refused } ∧
      t.block.refused = (s.block.refused || hostWasRefused es) ∧
      (s.hostWork = [] ∨ s.block.irqMasked = true → t.block.refused = s.block.refused) ∧
      t.ret = .unit ∧ t.cfg = s.cfg ∧ t.calls = s.calls ∧ t.snapInputs = s.snapInputs

/-- Idle restoration: after every SEND_BUFFER that is not refused, and so after every transmission of
BUILD_AND_SEND or TICK, the line is LOW (R187). -/
def Obligations.LineIsIdleAfterTransmission : Prop :=
  ∀ (i : Instr) (s t : State) (es : List Event),
    (∃ buf n, i = .sendBuffer buf n) ∨ (∃ snap, i = .buildAndSend snap) ∨ i = .tick →
    exec i s = .next t → (∀ r, t.ret ≠ .refused r) → t.log = s.log ++ es →
    (i = .tick → lineHistory es ≠ []) → t.block.line = .low ∧ (levels t.log).getLast? = some .low

/-- The times of a whole transmission (R96, R189): each preamble level is held for its phase and the gap
for its length; every character keeps its ten drives, and the end of its critical section, within
EDGE_SLACK of the boundaries measured from its own `t0`; a character starts only when the one before has
been waited out; and the final idle level is driven after all of it, of the gap alone where there is no
byte. This holds of SEND_BUFFER, of BUILD_AND_SEND, and of TICK where it transmits. The spec marks R96 as
its own inference. MODEL'S CHOICES: `t0` is the time at which the mask is set (log 22), and each character
puts back the mask found by the first (log 20). -/
def Obligations.TransmissionKeepsTheTimeBounds : Prop :=
  (∀ (buf : List Byte) (n : Nat) (s : State), s.block.txState = .idle → n ≤ buf.length →
    ∃ (t : State) (es : List Event), exec (.sendBuffer buf n) s = .next t ∧ t.log = s.log ++ es ∧
      keepsTimeBounds s.cfg s.block.irqMasked s.now t.now (buf.take n) es) ∧
  (∀ (snap : List Half) (s : State), s.block.txState = .idle → snap.length = 16 →
    ∃ (t u : State) (es : List Event) (f : List Byte), exec (.buildAndSend snap) s = .next t ∧
      exec (.buildFrame snap) s = .next u ∧ u.ret = .bytes f ∧ t.log = s.log ++ es ∧
      keepsTimeBounds s.cfg s.block.irqMasked s.now t.now f es) ∧
  (∀ (s t : State) (es : List Event), s.block.txState = .idle → exec .tick s = .next t →
    t.log = s.log ++ es → lineHistory es ≠ [] →
    ∃ (snap : List Half) (u : State) (f : List Byte), snap.length = 16 ∧
      exec (.buildFrame snap) s = .next u ∧ u.ret = .bytes f ∧
      keepsTimeBounds s.cfg s.block.irqMasked s.now t.now f es)

/-- At the reference parameters, and whatever the draws are, a frame takes at least 174848 ticks with the
preamble and at least 172564 without (R277).
The spec marks R277 as its own inference. -/
def Obligations.ReferenceFrameDurationBound : Prop :=
  ∀ (snap : List Half) (s : State) (enable : Bool),
    s.cfg = { Config.reference with preambleEnable := enable } →
    s.block.txState = .idle → snap.length = 16 →
    ∃ t, exec (.buildAndSend snap) s = .next t ∧
      s.now + (if enable then 174848 else 172564) ≤ t.now

/-- What is on the line determines the bytes: two transmissions under one configuration that add the same
levels to the line history carried the same bytes (R191). -/
def Obligations.WaveformDeterminesTheBytes : Prop :=
  ∀ (xs ys : List Byte) (s s' t t' : State) (es es' : List Event), s.cfg = s'.cfg →
    s.block.txState = .idle → s'.block.txState = .idle →
    exec (.sendBuffer xs xs.length) s = .next t → exec (.sendBuffer ys ys.length) s' = .next t' →
    t.log = s.log ++ es → t'.log = s'.log ++ es' → levels es = levels es' → xs = ys

/-- `tx_state` takes the transitions of R184 and no others, and no state twice within one operation: the
events of an operation hold no transition, or, as or through a SEND_BUFFER of `n` bytes, PREAMBLE,
BYTE(0) to BYTE(n-1) and IDLE. The state after an operation is the last one of them. MODEL'S CHOICE:
the write `tx_state <- IDLE` of RESET (R260), which finds the field IDLE, is no event (log 21). -/
def Obligations.TxStateTakesListedTransitions : Prop :=
  ∀ (i : Instr) (s t : State), exec i s = .next t →
    ∃ es : List Event, t.log = s.log ++ es ∧ txPathOk s.block.txState (txTrace es) = true ∧
      (txTrace es).Nodup ∧ t.block.txState = (txTrace es).getLast?.getD s.block.txState ∧
      (txTrace es = [] ∨ ∃ n : Nat, s.block.txState = .idle ∧
        txTrace es = .preamble :: (List.range n).map TxState.byte ++ [.idle] ∧
        ((∃ buf, i = .sendBuffer buf n) ∨ n = 26 ∧ ((∃ snap, i = .buildAndSend snap) ∨ i = .tick)))

/-- Every EnterCritical is followed by exactly one ExitCritical that puts back the mask found, before
anything but drives happens; every operation leaves `irq_masked` as it found it; and no host activity
shows while the mask found was on (R243, R245). MODEL'S CHOICES: the host changes the mask between
operations only (log 20), and shows in the windows of log 12.
The spec marks R245 as its own inference. -/
def Obligations.CriticalSectionsAreReleased : Prop :=
  ∀ (i : Instr) (s t : State), exec i s = .next t →
    t.block.irqMasked = s.block.irqMasked ∧
    ∃ es : List Event, t.log = s.log ++ es ∧ maskOk s.block.irqMasked none es = true

/-- Time never goes back: every operation's events lie, in order, between its start and its end
(R37, R70). -/
def Obligations.EventTimesNeverDecrease : Prop :=
  ∀ (s t : State), step s = .next t →
    ∃ es : List Event, t.log = s.log ++ es ∧ timesWithin s.now t.now es = true

/-! ### Refusals (60_exceptions.md) -/

/-- Every operation is refused just for the reason the table of R241 gives, the re-entrancy check before
the operand checks; a refusal sets the mark and changes nothing else; an operation that is not refused
completes, unless it is a TICK that would have to read an unwritten `last_send`. MODEL'S CHOICE: a refusal
takes no time (log 24). -/
def Obligations.RefusalsAreThoseOfTheTable : Prop :=
  ∀ (i : Instr) (s : State),
    (∀ r, refusalOf i s.block.txState = some r → exec i s = .next (refusedFrom s r)) ∧
    (refusalOf i s.block.txState = none →
      (i = .tick → s.block.sentAny = true → s.block.lastSend.isSome = true) →
      ∃ t, exec i s = .next t ∧ ∀ r, t.ret ≠ .refused r)

/-- Calls of host activity during a transmission: the pure operations, with operands of their shape,
answer and touch no persistent state, and with other operands are refused for the reason of R241; the
transmitting and gating ones and RESET are refused with ReentrantTransmit, and a reserved selector with
ReservedSelector, whatever its operands (R99, R241, R256). A refusal sets the mark (R41) and changes
nothing else but the log. MODEL'S CHOICES: the refused call returns to the host (log 3), and a call leaves
the interrupted operation's transient fields and the time as they are (log 12). -/
def Obligations.HostActivityMayOnlyCallPureOperations : Prop :=
  (∀ (c : Call) (i : Instr) (s : State), decode c = .ok i →
    (transmits i = true → hostCall c s = .ok { s with
      block := { s.block with refused := true },
      log := s.log ++ [.host s.now (.refused .reentrantTransmit)] }) ∧
    (transmits i = false → i.wellFormed = true →
      ∃ r : Return, hostCall c s = .ok { s with log := s.log ++ [.host s.now r] } ∧
        ∃ t, exec i s = .next t ∧ t.ret = r ∧ ∀ q, r ≠ .refused q) ∧
    (transmits i = false → i.wellFormed = false →
      ∃ q : RefuseReason, operandRefusal i = some q ∧ hostCall c s = .ok { s with
        block := { s.block with refused := true },
        log := s.log ++ [.host s.now (.refused q)] })) ∧
  ∀ (c : Call) (s : State), (∀ i : Instr, selector i ≠ c.sel) → hostCall c s = .ok { s with
    block := { s.block with refused := true },
    log := s.log ++ [.host s.now (.refused .reservedSelector)] }

/-- While `irq_masked` is true no host activity runs in a window of a transmission: only time passes
(R243). -/
def Obligations.NoHostActivityWhileMasked : Prop :=
  ∀ s : State, s.block.irqMasked = true →
    ∃ t, hostWindow s = .ok t ∧ t.block = s.block ∧ t.log = s.log ∧ t.hostWork = s.hostWork ∧
      s.now ≤ t.now

/-- While `irq_masked` is false a window of a transmission runs the next batch of host activity's calls, in
order, after any time has passed: each call does what hostCall says and gives one answer, and the other
batches stay for later windows (R243, R256). MODEL'S CHOICE: the batches and the windows (log 12). -/
def Obligations.HostWindowRunsTheNextBatch : Prop :=
  ∀ (s : State) (batch : List Call) (rest : List (List Call)), s.block.irqMasked = false →
    s.hostWork = batch :: rest →
    ∃ (u t : State) (rs : List Return), u.block = s.block ∧ u.cfg = s.cfg ∧ u.log = s.log ∧
      u.hostWork = rest ∧ s.now ≤ u.now ∧
      hostWindow s = .ok t ∧ hostCalls batch u = .ok t ∧ t.hostWork = rest ∧ t.now = u.now ∧
      t.log = s.log ++ rs.map (Event.host u.now) ∧ rs.length = batch.length ∧
      (∀ (k : Nat) (c : Call), batch[k]? = some c → ∃ (v w : State) (r : Return), v.cfg = s.cfg ∧
        hostCall c v = .ok w ∧ w.log = v.log ++ [.host u.now r] ∧ rs[k]? = some r) ∧
      ∀ (c : Call) (cs : List Call) (v w : State), hostCall c v = .ok w →
        hostCalls (c :: cs) v = hostCalls cs w

/-- A SEND_BUFFER of `n` bytes takes `n + 1` batches of host activity's calls where the mask found is off,
and answers every call in them; where it is on, it takes and answers none, and none is lost (R188, R243,
R246). BUILD_AND_SEND, and TICK where it transmits, do the same with the 26 bytes of a frame. Where the
answers stand among the events is TransmissionEventsStandInOrder. MODEL'S CHOICES: the batches and their
windows (log 12), and the mask found lasting through the operation (log 20). -/
def Obligations.TransmissionGivesHostItsWindows : Prop :=
  (∀ (buf : List Byte) (n : Nat) (s : State), s.block.txState = .idle → n ≤ buf.length →
    ∃ (t : State) (es : List Event), exec (.sendBuffer buf n) s = .next t ∧ t.log = s.log ++ es ∧
      (s.block.irqMasked = true → t.hostWork = s.hostWork ∧ hostAnswers es = []) ∧
      (s.block.irqMasked = false → t.hostWork = s.hostWork.drop (n + 1) ∧
        (hostAnswers es).length = ((s.hostWork.take (n + 1)).map List.length).sum)) ∧
  ∀ (i : Instr) (s t : State) (es : List Event), s.block.txState = .idle →
    (∃ snap, i = .buildAndSend snap ∧ snap.length = 16) ∨ i = .tick →
    exec i s = .next t → t.log = s.log ++ es → (i = .tick → lineHistory es ≠ []) →
    (s.block.irqMasked = true → t.hostWork = s.hostWork ∧ hostAnswers es = []) ∧
    (s.block.irqMasked = false → t.hostWork = s.hostWork.drop 27 ∧
      (hostAnswers es).length = ((s.hostWork.take 27).map List.length).sum)

/-- The events of a transmission stand in the order of R182: `tx_state <- PREAMBLE`; the drives of the
preamble; then for each byte `i` in order, `tx_state <- BYTE(i)`, EnterCritical, the ten drives of the
character and ExitCritical; then Drive(LOW) and `tx_state <- IDLE`. So `tx_state` is PREAMBLE during
preamble and gap, and BYTE(i) from the start of character `i` to the start of the next (R38, R184). This
holds of SEND_BUFFER, of BUILD_AND_SEND, and of TICK where it transmits. MODEL'S CHOICES: host activity's
answers stand in one window after the gap and one after each character, a batch in each (log 12), and the
mask found lasts through the operation (log 20). -/
def Obligations.TransmissionEventsStandInOrder : Prop :=
  (∀ (buf : List Byte) (n : Nat) (s : State), s.block.txState = .idle → n ≤ buf.length →
    ∃ (t : State) (es : List Event), exec (.sendBuffer buf n) s = .next t ∧ t.log = s.log ++ es ∧
      isTransmission s.cfg s.block.irqMasked s.hostWork (buf.take n) es) ∧
  (∀ (snap : List Half) (s : State), s.block.txState = .idle → snap.length = 16 →
    ∃ (t u : State) (es : List Event) (f : List Byte), exec (.buildAndSend snap) s = .next t ∧
      exec (.buildFrame snap) s = .next u ∧ u.ret = .bytes f ∧ t.log = s.log ++ es ∧
      isTransmission s.cfg s.block.irqMasked s.hostWork f es) ∧
  (∀ (s t : State) (es : List Event), s.block.txState = .idle → exec .tick s = .next t →
    t.log = s.log ++ es → lineHistory es ≠ [] →
    ∃ (snap : List Half) (u : State) (f : List Byte), snap.length = 16 ∧
      exec (.buildFrame snap) s = .next u ∧ u.ret = .bytes f ∧
      isTransmission s.cfg s.block.irqMasked s.hostWork f es)

/-- The block holds the interrupt mask for at most one character and EDGE_SLACK at a time: in every
operation each EnterCritical is followed by its ExitCritical at most `E(10) + EDGE_SLACK` ticks later
(R246; that the read of `t0` takes no time is log 22). -/
def Obligations.MaskIsHeldAtMostOneCharacter : Prop :=
  ∀ (i : Instr) (s t : State), exec i s = .next t →
    ∃ es : List Event, t.log = s.log ++ es ∧
      heldWithin (10 * s.cfg.fTick / 420000 + s.cfg.edgeSlack) (maskHistory es) = true

/-! ### Periodic Driver (44_periodic_driver.md) -/

/-- The rate gate: TICK, invoked while IDLE, reads the time at some `r` and transmits one frame just when
`sent_any` is false or `r - last_send` is at least INTERVAL_TICKS, and then one answer of the channel
store is used up, and no more (R66, R67); otherwise it is a no-op. INTERVAL_TICKS is 20 ms of F_TICK,
rounded up (R221). A frame takes at least the nominal time (R189, and R277, which the spec marks as its own
inference), and the refusal mark is set just where it was set before or a call of host activity was
refused (R41). MODEL'S CHOICES: the answers of the channel store are a list of inputs (log 13), the mask is
as before because the host changes it between operations only (log 20), and host activity's calls are made
in the windows of log 12. -/
def Obligations.TickTransmitsWhenGateOpen : Prop :=
  (∀ (s : State) (last : Nat), s.block.txState = .idle → s.cfg.timeWidth = none →
    (s.block.sentAny = true → s.block.lastSend = some last) →
    ∃ (t : State) (es : List Event) (r : Nat), exec .tick s = .next t ∧ t.log = s.log ++ es ∧
      s.now ≤ r ∧ r ≤ t.now ∧ t.ret = .unit ∧ t.cfg = s.cfg ∧ t.calls = s.calls ∧
      if s.block.sentAny = false ∨ (s.cfg.intervalTicks : Int) ≤ (r : Int) - last then
        tickSends r s t es
      else tickHolds s t es) ∧
  (∀ f : Nat, 20 * f ≤ 1000 * (Config.forFTick f).intervalTicks ∧
    1000 * (Config.forFTick f).intervalTicks < 20 * f + 1000)

/-- The stamp: a TICK that transmits leaves `sent_any` true and `last_send` at the time read after the
transmission, which is no earlier than any of its drives; and every drive of a later TICK comes at least
INTERVAL_TICKS after the stamp it finds (R222, R223). MODEL'S CHOICE: TICK returns at the tick of the read
that it stamps (log 24). -/
def Obligations.TickFramesKeepTheInterval : Prop :=
  ∀ (s t : State) (es : List Event), s.cfg.timeWidth = none → s.block.txState = .idle →
    exec .tick s = .next t → t.log = s.log ++ es → lineHistory es ≠ [] →
    t.block.sentAny = true ∧ t.block.lastSend = some t.now ∧
    (∀ e ∈ es, e.time ≤ t.now) ∧ (txTrace es).count .preamble = 1 ∧
    (∀ last, s.block.sentAny = true → s.block.lastSend = some last →
      ∀ d ∈ lineHistory es, last + s.cfg.intervalTicks ≤ d.1)

/-- The first TICK after a RESET transmits (R220, R260): the one on the very state that RESET answers, and
the first that the caller calls after it, whenever it calls it, and whatever other operations, completed or
refused, come in between. MODEL'S CHOICE: the caller's calls stand in a queue with their times and the
host's mask (logs 1, 20). -/
def Obligations.FirstTickAfterResetTransmits : Prop :=
  (∀ s : State, s.block.txState = .idle →
    ∃ (t u v : State) (es : List Event) (snap : List Half) (f : List Byte),
      exec .reset s = .next t ∧ exec .tick t = .next u ∧ u.log = t.log ++ es ∧
      snap.length = 16 ∧ exec (.buildFrame snap) s = .next v ∧ v.ret = .bytes f ∧
      levels es = transmissionShape s.cfg f ∧ u.block.sentAny = true) ∧
  ∀ (s t : State) (between rest : List Arrival) (a : Arrival), s.block.txState = .idle →
    exec .reset s = .next t → t.calls = between ++ a :: rest →
    (∀ b ∈ between, decode b.call ≠ .ok .tick) → decode a.call = .ok .tick →
    ∃ (u v w : State) (es : List Event) (snap : List Half) (f : List Byte),
      runSteps between.length t = some u ∧ step u = .next v ∧ v.log = u.log ++ es ∧
      snap.length = 16 ∧ exec (.buildFrame snap) s = .next w ∧ w.ret = .bytes f ∧
      levels es = transmissionShape s.cfg f ∧ v.block.sentAny = true

/-- Only TICK and RESET write the gate (R40, D16). -/
def Obligations.OnlyTickAndResetWriteTheGate : Prop :=
  ∀ (i : Instr) (s t : State), i ≠ .tick → i ≠ .reset → exec i s = .next t →
    t.block.sentAny = s.block.sentAny ∧ t.block.lastSend = s.block.lastSend

/-- The arithmetic of a wrapping counter: the difference of two readings of a counter of TIME_WIDTH bits,
taken modulo 2^TIME_WIDTH, is the true elapsed time as long as fewer than 2^TIME_WIDTH ticks have passed
(R226). It speaks of elapsedTicks and counterAt alone; that TICK uses them (log 14) is
TickOfWrappingCounter. -/
def Obligations.WrappingCounterElapsedIsExact : Prop :=
  ∀ (c : Config) (w now last : Nat), c.timeWidth = some w → last ≤ now → now - last < 2 ^ w →
    elapsedTicks c (counterAt c now) (counterAt c last) = (now : Int) - last

/-- TICK where the time source is a counter of TIME_WIDTH bits (R226; that the gate and the stamp see the
counter is log 14): with the counter's reading of time `last` stamped, it reads the time at some `r`,
transmits just when `sent_any` is false or `r - last` modulo 2^TIME_WIDTH is at least INTERVAL_TICKS, and
then stamps the counter; so it decides by the true elapsed time as long as fewer than 2^TIME_WIDTH ticks
have passed since the stamp, and can be late after that (R268). What it sends, and what it leaves, is as
TickTransmitsWhenGateOpen says. MODEL'S CHOICES: those of that statement (logs 12, 13, 20), and that TICK
returns at the tick of the read that it stamps (log 24). -/
def Obligations.TickOfWrappingCounter : Prop :=
  ∀ (s : State) (w last : Nat), s.block.txState = .idle → s.cfg.timeWidth = some w → last ≤ s.now →
    (s.block.sentAny = true → s.block.lastSend = some (last % 2 ^ w)) →
    ∃ (t : State) (es : List Event) (r : Nat), exec .tick s = .next t ∧ t.log = s.log ++ es ∧
      s.now ≤ r ∧ r ≤ t.now ∧ t.ret = .unit ∧ t.cfg = s.cfg ∧ t.calls = s.calls ∧
      (if s.block.sentAny = false ∨ s.cfg.intervalTicks ≤ (r - last) % 2 ^ w then
        tickSends r s t es ∧ t.block.lastSend = some (t.now % 2 ^ w)
      else tickHolds s t es) ∧
      (s.block.sentAny = true → r - last < 2 ^ w →
        (lineHistory es ≠ [] ↔ s.cfg.intervalTicks ≤ r - last))

/-! ### RESET and the state after reset (10_state.md section 10, 70_reset_and_hazards.md) -/

/-- RESET, invoked while IDLE, drives the line LOW and leaves every field as the table of R47 says: the
transient fields and `last_send` unwritten, `sent_any` false, the mask, the refusal mark and the
configuration unchanged; it does not touch the channel store (R260). MODEL'S CHOICE: its write
`tx_state <- IDLE`, which finds the field IDLE, is no event (log 21). -/
def Obligations.ResetGivesTheTableValues : Prop :=
  ∀ s : State, s.block.txState = .idle →
    ∃ (t : State) (d : Nat), exec .reset s = .next t ∧ s.now ≤ d ∧ d ≤ t.now ∧
      t.log = s.log ++ [.drive d .low] ∧
      t.block = { line := .low, irqMasked := s.block.irqMasked, irqSaved := none, txState := .idle,
                  sentAny := false, lastSend := none, refused := s.block.refused, crcAcc := none,
                  cursor := none, frame := none, snap := none, t0 := none } ∧
      t.cfg = s.cfg ∧ t.ret = .unit ∧ t.calls = s.calls ∧ t.hostWork = s.hostWork ∧
      t.snapInputs = s.snapInputs

/-- The model's state after reset has the block of R47, with `irq_masked` and `refused` false (MODEL'S
CHOICES, logs 9 and 10), the configuration of R14 and R15 (MODEL'S CHOICE, log 8), and satisfies the
invariant of the states between operations. -/
def Obligations.ResetStateIsBetweenOperations : Prop :=
  State.reset.block = { line := .low, irqMasked := false, irqSaved := none, txState := .idle,
                        sentAny := false, lastSend := none, refused := false, crcAcc := none,
                        cursor := none, frame := none, snap := none, t0 := none } ∧
  State.reset.cfg = Config.reference ∧
  State.reset.block.betweenOps ∧ State.reset.good ∧ State.reset.cfg.wf

/-! ### The whole machine -/

/-- Between operations `tx_state` is IDLE (R39), the line is at its idle level (R35, R72), no transient
field holds a value (R32), and `last_send` is written just where it may be read (R40): every step keeps
this. -/
def Obligations.StepsKeepTheStateBetweenOperations : Prop :=
  ∀ s t : State, s.block.betweenOps → step s = .next t → t.block.betweenOps

/-- No rule reads an unwritten field: from every state where `last_send` is written when `sent_any` is
true, a step answers a next state, and never a fault or a refusal of the model (R48).
The spec marks R48 as its own inference. -/
def Obligations.NoStepReadsAnUnwrittenField : Prop :=
  ∀ s : State, (s.block.sentAny = true → s.block.lastSend.isSome = true) → ∃ t : State, step s = .next t

/-- The refusal mark is set by every refusal, of an operation, of a call and of host activity's calls, and
never cleared, not even by RESET (R41): a mark that a call of host activity sets during an operation is
still set in the state that the operation answers. -/
def Obligations.RefusedMarkIsNeverCleared : Prop :=
  (∀ s t : State, step s = .next t → s.block.refused = true → t.block.refused = true) ∧
  (∀ (i : Instr) (s t : State) (r : RefuseReason), exec i s = .next t → t.ret = .refused r →
    t.block.refused = true) ∧
  (∀ (s t : State) (r : RefuseReason), s.calls ≠ [] → step s = .next t → t.ret = .refused r →
    t.block.refused = true) ∧
  (∀ (c : Call) (s t : State) (r : RefuseReason), hostCall c s = .ok t →
    t.log = s.log ++ [.host s.now (.refused r)] → t.block.refused = true) ∧
  ∀ (i : Instr) (s t : State) (es : List Event) (r : RefuseReason), exec i s = .next t →
    t.log = s.log ++ es → .refused r ∈ hostAnswers es → t.block.refused = true

/-- No operation writes the configuration (R33). -/
def Obligations.ConfigurationIsReadOnly : Prop :=
  ∀ s t : State, step s = .next t → t.cfg = s.cfg

/-- No transient field carries a value from one operation into the next: a completed operation leaves
all six unwritten, and its outcome is the same whatever they held before it (R32). -/
def Obligations.TransientsCarryNothing : Prop :=
  ∀ (i : Instr) (s t : State) (b : Block), exec i s = .next t → (∀ r, t.ret ≠ .refused r) →
    t.block.noTransients ∧ exec i { s with block := s.block.transientsFrom b } = .next t

/-- The pure operations, BUILD_FRAME among them, are functions of their operands and the configuration
(of which only ADDR matters): two states of one address get the same answer, and neither time nor the
line nor anything persistent changes (R164, R256). MODEL'S CHOICE: they take no time (log 24).
The spec marks R164 as its own inference. -/
def Obligations.PureOperationsTouchNothing : Prop :=
  ∀ (i : Instr) (s s' : State), transmits i = false → i.wellFormed = true → s.cfg.addr = s'.cfg.addr →
    ∃ r : Return, (∀ q, r ≠ .refused q) ∧ exec i s = .next (completedFrom s r) ∧
      exec i s' = .next (completedFrom s' r)
end

