-- ==== Sys2Proof/Laws/State.lean ====
section
/-! SUPPORT. The small lemmas of the state: what each named update leaves in each field, so that no later proof unfolds an update. -/

namespace Sys2Proof.Machine

/-! ### drive -/

@[simp] theorem State.drive_block (l : Level) (s : State) : (s.drive l).block = { s.block with line := l } := rfl
@[simp] theorem State.drive_cfg (l : Level) (s : State) : (s.drive l).cfg = s.cfg := rfl
@[simp] theorem State.drive_now (l : Level) (s : State) : (s.drive l).now = s.now := rfl
@[simp] theorem State.drive_log (l : Level) (s : State) : (s.drive l).log = s.log ++ [.drive s.now l] := rfl
@[simp] theorem State.drive_ret (l : Level) (s : State) : (s.drive l).ret = s.ret := rfl
@[simp] theorem State.drive_calls (l : Level) (s : State) : (s.drive l).calls = s.calls := rfl
@[simp] theorem State.drive_hostWork (l : Level) (s : State) : (s.drive l).hostWork = s.hostWork := rfl
@[simp] theorem State.drive_timeInputs (l : Level) (s : State) : (s.drive l).timeInputs = s.timeInputs := rfl
@[simp] theorem State.drive_snapInputs (l : Level) (s : State) : (s.drive l).snapInputs = s.snapInputs := rfl
@[simp] theorem State.drive_draws (l : Level) (s : State) : (s.drive l).draws = s.draws := rfl

/-! ### setTx -/

@[simp] theorem State.setTx_block (x : TxState) (s : State) : (s.setTx x).block = { s.block with txState := x } := rfl
@[simp] theorem State.setTx_cfg (x : TxState) (s : State) : (s.setTx x).cfg = s.cfg := rfl
@[simp] theorem State.setTx_now (x : TxState) (s : State) : (s.setTx x).now = s.now := rfl
@[simp] theorem State.setTx_log (x : TxState) (s : State) : (s.setTx x).log = s.log ++ [.tx s.now x] := rfl
@[simp] theorem State.setTx_ret (x : TxState) (s : State) : (s.setTx x).ret = s.ret := rfl
@[simp] theorem State.setTx_calls (x : TxState) (s : State) : (s.setTx x).calls = s.calls := rfl
@[simp] theorem State.setTx_hostWork (x : TxState) (s : State) : (s.setTx x).hostWork = s.hostWork := rfl
@[simp] theorem State.setTx_timeInputs (x : TxState) (s : State) : (s.setTx x).timeInputs = s.timeInputs := rfl
@[simp] theorem State.setTx_snapInputs (x : TxState) (s : State) : (s.setTx x).snapInputs = s.snapInputs := rfl
@[simp] theorem State.setTx_draws (x : TxState) (s : State) : (s.setTx x).draws = s.draws := rfl

/-! ### setCrcAcc -/

@[simp] theorem State.setCrcAcc_block (a : Byte) (s : State) : (s.setCrcAcc a).block = { s.block with crcAcc := some a } := rfl
@[simp] theorem State.setCrcAcc_cfg (a : Byte) (s : State) : (s.setCrcAcc a).cfg = s.cfg := rfl
@[simp] theorem State.setCrcAcc_now (a : Byte) (s : State) : (s.setCrcAcc a).now = s.now := rfl
@[simp] theorem State.setCrcAcc_log (a : Byte) (s : State) : (s.setCrcAcc a).log = s.log := rfl
@[simp] theorem State.setCrcAcc_ret (a : Byte) (s : State) : (s.setCrcAcc a).ret = s.ret := rfl
@[simp] theorem State.setCrcAcc_calls (a : Byte) (s : State) : (s.setCrcAcc a).calls = s.calls := rfl
@[simp] theorem State.setCrcAcc_hostWork (a : Byte) (s : State) : (s.setCrcAcc a).hostWork = s.hostWork := rfl
@[simp] theorem State.setCrcAcc_timeInputs (a : Byte) (s : State) : (s.setCrcAcc a).timeInputs = s.timeInputs := rfl
@[simp] theorem State.setCrcAcc_snapInputs (a : Byte) (s : State) : (s.setCrcAcc a).snapInputs = s.snapInputs := rfl
@[simp] theorem State.setCrcAcc_draws (a : Byte) (s : State) : (s.setCrcAcc a).draws = s.draws := rfl

/-! ### setCursor -/

@[simp] theorem State.setCursor_block (n : Nat) (s : State) : (s.setCursor n).block = { s.block with cursor := some n } := rfl
@[simp] theorem State.setCursor_cfg (n : Nat) (s : State) : (s.setCursor n).cfg = s.cfg := rfl
@[simp] theorem State.setCursor_now (n : Nat) (s : State) : (s.setCursor n).now = s.now := rfl
@[simp] theorem State.setCursor_log (n : Nat) (s : State) : (s.setCursor n).log = s.log := rfl
@[simp] theorem State.setCursor_ret (n : Nat) (s : State) : (s.setCursor n).ret = s.ret := rfl
@[simp] theorem State.setCursor_calls (n : Nat) (s : State) : (s.setCursor n).calls = s.calls := rfl
@[simp] theorem State.setCursor_hostWork (n : Nat) (s : State) : (s.setCursor n).hostWork = s.hostWork := rfl
@[simp] theorem State.setCursor_timeInputs (n : Nat) (s : State) : (s.setCursor n).timeInputs = s.timeInputs := rfl
@[simp] theorem State.setCursor_snapInputs (n : Nat) (s : State) : (s.setCursor n).snapInputs = s.snapInputs := rfl
@[simp] theorem State.setCursor_draws (n : Nat) (s : State) : (s.setCursor n).draws = s.draws := rfl

/-! ### setFrame -/

@[simp] theorem State.setFrame_block (bs : List Byte) (s : State) : (s.setFrame bs).block = { s.block with frame := some bs } := rfl
@[simp] theorem State.setFrame_cfg (bs : List Byte) (s : State) : (s.setFrame bs).cfg = s.cfg := rfl
@[simp] theorem State.setFrame_now (bs : List Byte) (s : State) : (s.setFrame bs).now = s.now := rfl
@[simp] theorem State.setFrame_log (bs : List Byte) (s : State) : (s.setFrame bs).log = s.log := rfl
@[simp] theorem State.setFrame_ret (bs : List Byte) (s : State) : (s.setFrame bs).ret = s.ret := rfl
@[simp] theorem State.setFrame_calls (bs : List Byte) (s : State) : (s.setFrame bs).calls = s.calls := rfl
@[simp] theorem State.setFrame_hostWork (bs : List Byte) (s : State) : (s.setFrame bs).hostWork = s.hostWork := rfl
@[simp] theorem State.setFrame_timeInputs (bs : List Byte) (s : State) : (s.setFrame bs).timeInputs = s.timeInputs := rfl
@[simp] theorem State.setFrame_snapInputs (bs : List Byte) (s : State) : (s.setFrame bs).snapInputs = s.snapInputs := rfl
@[simp] theorem State.setFrame_draws (bs : List Byte) (s : State) : (s.setFrame bs).draws = s.draws := rfl

/-! ### setSnap -/

@[simp] theorem State.setSnap_block (vs : List Half) (s : State) : (s.setSnap vs).block = { s.block with snap := some vs } := rfl
@[simp] theorem State.setSnap_cfg (vs : List Half) (s : State) : (s.setSnap vs).cfg = s.cfg := rfl
@[simp] theorem State.setSnap_now (vs : List Half) (s : State) : (s.setSnap vs).now = s.now := rfl
@[simp] theorem State.setSnap_log (vs : List Half) (s : State) : (s.setSnap vs).log = s.log := rfl
@[simp] theorem State.setSnap_ret (vs : List Half) (s : State) : (s.setSnap vs).ret = s.ret := rfl
@[simp] theorem State.setSnap_calls (vs : List Half) (s : State) : (s.setSnap vs).calls = s.calls := rfl
@[simp] theorem State.setSnap_hostWork (vs : List Half) (s : State) : (s.setSnap vs).hostWork = s.hostWork := rfl
@[simp] theorem State.setSnap_timeInputs (vs : List Half) (s : State) : (s.setSnap vs).timeInputs = s.timeInputs := rfl
@[simp] theorem State.setSnap_snapInputs (vs : List Half) (s : State) : (s.setSnap vs).snapInputs = s.snapInputs := rfl
@[simp] theorem State.setSnap_draws (vs : List Half) (s : State) : (s.setSnap vs).draws = s.draws := rfl

/-! ### setT0 -/

@[simp] theorem State.setT0_block (t : Nat) (s : State) : (s.setT0 t).block = { s.block with t0 := some t } := rfl
@[simp] theorem State.setT0_cfg (t : Nat) (s : State) : (s.setT0 t).cfg = s.cfg := rfl
@[simp] theorem State.setT0_now (t : Nat) (s : State) : (s.setT0 t).now = s.now := rfl
@[simp] theorem State.setT0_log (t : Nat) (s : State) : (s.setT0 t).log = s.log := rfl
@[simp] theorem State.setT0_ret (t : Nat) (s : State) : (s.setT0 t).ret = s.ret := rfl
@[simp] theorem State.setT0_calls (t : Nat) (s : State) : (s.setT0 t).calls = s.calls := rfl
@[simp] theorem State.setT0_hostWork (t : Nat) (s : State) : (s.setT0 t).hostWork = s.hostWork := rfl
@[simp] theorem State.setT0_timeInputs (t : Nat) (s : State) : (s.setT0 t).timeInputs = s.timeInputs := rfl
@[simp] theorem State.setT0_snapInputs (t : Nat) (s : State) : (s.setT0 t).snapInputs = s.snapInputs := rfl
@[simp] theorem State.setT0_draws (t : Nat) (s : State) : (s.setT0 t).draws = s.draws := rfl

/-! ### enterCritical -/

@[simp] theorem State.enterCritical_block (s : State) : s.enterCritical.block = { s.block with irqSaved := some s.block.irqMasked, irqMasked := true } := rfl
@[simp] theorem State.enterCritical_cfg (s : State) : s.enterCritical.cfg = s.cfg := rfl
@[simp] theorem State.enterCritical_now (s : State) : s.enterCritical.now = s.now := rfl
@[simp] theorem State.enterCritical_log (s : State) : s.enterCritical.log = s.log ++ [.mask s.now true] := rfl
@[simp] theorem State.enterCritical_ret (s : State) : s.enterCritical.ret = s.ret := rfl
@[simp] theorem State.enterCritical_calls (s : State) : s.enterCritical.calls = s.calls := rfl
@[simp] theorem State.enterCritical_hostWork (s : State) : s.enterCritical.hostWork = s.hostWork := rfl
@[simp] theorem State.enterCritical_timeInputs (s : State) : s.enterCritical.timeInputs = s.timeInputs := rfl
@[simp] theorem State.enterCritical_snapInputs (s : State) : s.enterCritical.snapInputs = s.snapInputs := rfl
@[simp] theorem State.enterCritical_draws (s : State) : s.enterCritical.draws = s.draws := rfl

/-! ### markRefused -/

@[simp] theorem State.markRefused_block (r : RefuseReason) (s : State) : (s.markRefused r).block = { s.block with refused := true } := rfl
@[simp] theorem State.markRefused_cfg (r : RefuseReason) (s : State) : (s.markRefused r).cfg = s.cfg := rfl
@[simp] theorem State.markRefused_now (r : RefuseReason) (s : State) : (s.markRefused r).now = s.now := rfl
@[simp] theorem State.markRefused_log (r : RefuseReason) (s : State) : (s.markRefused r).log = s.log := rfl
@[simp] theorem State.markRefused_ret (r : RefuseReason) (s : State) : (s.markRefused r).ret = .refused r := rfl
@[simp] theorem State.markRefused_calls (r : RefuseReason) (s : State) : (s.markRefused r).calls = s.calls := rfl
@[simp] theorem State.markRefused_hostWork (r : RefuseReason) (s : State) : (s.markRefused r).hostWork = s.hostWork := rfl
@[simp] theorem State.markRefused_timeInputs (r : RefuseReason) (s : State) : (s.markRefused r).timeInputs = s.timeInputs := rfl
@[simp] theorem State.markRefused_snapInputs (r : RefuseReason) (s : State) : (s.markRefused r).snapInputs = s.snapInputs := rfl
@[simp] theorem State.markRefused_draws (r : RefuseReason) (s : State) : (s.markRefused r).draws = s.draws := rfl

/-! ### complete -/

@[simp] theorem State.complete_block (r : Return) (s : State) : (s.complete r).block = s.block.clearTransients := rfl
@[simp] theorem State.complete_cfg (r : Return) (s : State) : (s.complete r).cfg = s.cfg := rfl
@[simp] theorem State.complete_now (r : Return) (s : State) : (s.complete r).now = s.now := rfl
@[simp] theorem State.complete_log (r : Return) (s : State) : (s.complete r).log = s.log := rfl
@[simp] theorem State.complete_ret (r : Return) (s : State) : (s.complete r).ret = r := rfl
@[simp] theorem State.complete_calls (r : Return) (s : State) : (s.complete r).calls = s.calls := rfl
@[simp] theorem State.complete_hostWork (r : Return) (s : State) : (s.complete r).hostWork = s.hostWork := rfl
@[simp] theorem State.complete_timeInputs (r : Return) (s : State) : (s.complete r).timeInputs = s.timeInputs := rfl
@[simp] theorem State.complete_snapInputs (r : Return) (s : State) : (s.complete r).snapInputs = s.snapInputs := rfl
@[simp] theorem State.complete_draws (r : Return) (s : State) : (s.complete r).draws = s.draws := rfl

/-! ### logHost -/

@[simp] theorem State.logHost_block (r : Return) (s : State) : (s.logHost r).block = s.block := rfl
@[simp] theorem State.logHost_cfg (r : Return) (s : State) : (s.logHost r).cfg = s.cfg := rfl
@[simp] theorem State.logHost_now (r : Return) (s : State) : (s.logHost r).now = s.now := rfl
@[simp] theorem State.logHost_log (r : Return) (s : State) : (s.logHost r).log = s.log ++ [.host s.now r] := rfl
@[simp] theorem State.logHost_ret (r : Return) (s : State) : (s.logHost r).ret = s.ret := rfl
@[simp] theorem State.logHost_calls (r : Return) (s : State) : (s.logHost r).calls = s.calls := rfl
@[simp] theorem State.logHost_hostWork (r : Return) (s : State) : (s.logHost r).hostWork = s.hostWork := rfl
@[simp] theorem State.logHost_timeInputs (r : Return) (s : State) : (s.logHost r).timeInputs = s.timeInputs := rfl
@[simp] theorem State.logHost_snapInputs (r : Return) (s : State) : (s.logHost r).snapInputs = s.snapInputs := rfl
@[simp] theorem State.logHost_draws (r : Return) (s : State) : (s.logHost r).draws = s.draws := rfl

/-! ### hostRefused -/

@[simp] theorem State.hostRefused_block (r : RefuseReason) (s : State) : (s.hostRefused r).block = { s.block with refused := true } := rfl
@[simp] theorem State.hostRefused_cfg (r : RefuseReason) (s : State) : (s.hostRefused r).cfg = s.cfg := rfl
@[simp] theorem State.hostRefused_now (r : RefuseReason) (s : State) : (s.hostRefused r).now = s.now := rfl
@[simp] theorem State.hostRefused_log (r : RefuseReason) (s : State) : (s.hostRefused r).log = s.log ++ [.host s.now (.refused r)] := rfl
@[simp] theorem State.hostRefused_ret (r : RefuseReason) (s : State) : (s.hostRefused r).ret = s.ret := rfl
@[simp] theorem State.hostRefused_calls (r : RefuseReason) (s : State) : (s.hostRefused r).calls = s.calls := rfl
@[simp] theorem State.hostRefused_hostWork (r : RefuseReason) (s : State) : (s.hostRefused r).hostWork = s.hostWork := rfl
@[simp] theorem State.hostRefused_timeInputs (r : RefuseReason) (s : State) : (s.hostRefused r).timeInputs = s.timeInputs := rfl
@[simp] theorem State.hostRefused_snapInputs (r : RefuseReason) (s : State) : (s.hostRefused r).snapInputs = s.snapInputs := rfl
@[simp] theorem State.hostRefused_draws (r : RefuseReason) (s : State) : (s.hostRefused r).draws = s.draws := rfl

/-! ### stamp -/

@[simp] theorem State.stamp_block (t : Nat) (s : State) : (s.stamp t).block = { s.block with lastSend := some t, sentAny := true } := rfl
@[simp] theorem State.stamp_cfg (t : Nat) (s : State) : (s.stamp t).cfg = s.cfg := rfl
@[simp] theorem State.stamp_now (t : Nat) (s : State) : (s.stamp t).now = s.now := rfl
@[simp] theorem State.stamp_log (t : Nat) (s : State) : (s.stamp t).log = s.log := rfl
@[simp] theorem State.stamp_ret (t : Nat) (s : State) : (s.stamp t).ret = s.ret := rfl
@[simp] theorem State.stamp_calls (t : Nat) (s : State) : (s.stamp t).calls = s.calls := rfl
@[simp] theorem State.stamp_hostWork (t : Nat) (s : State) : (s.stamp t).hostWork = s.hostWork := rfl
@[simp] theorem State.stamp_timeInputs (t : Nat) (s : State) : (s.stamp t).timeInputs = s.timeInputs := rfl
@[simp] theorem State.stamp_snapInputs (t : Nat) (s : State) : (s.stamp t).snapInputs = s.snapInputs := rfl
@[simp] theorem State.stamp_draws (t : Nat) (s : State) : (s.stamp t).draws = s.draws := rfl

/-! ### Draws and time -/

@[simp] theorem State.useTickDraw_block (s : State) : s.useTickDraw.block = s.block := by
  unfold State.useTickDraw; split <;> rfl
@[simp] theorem State.useTickDraw_cfg (s : State) : s.useTickDraw.cfg = s.cfg := by
  unfold State.useTickDraw; split <;> rfl
@[simp] theorem State.useTickDraw_now (s : State) : s.useTickDraw.now = s.now := by
  unfold State.useTickDraw; split <;> rfl
@[simp] theorem State.useTickDraw_log (s : State) : s.useTickDraw.log = s.log := by
  unfold State.useTickDraw; split <;> rfl
@[simp] theorem State.useTickDraw_ret (s : State) : s.useTickDraw.ret = s.ret := by
  unfold State.useTickDraw; split <;> rfl
@[simp] theorem State.useTickDraw_calls (s : State) : s.useTickDraw.calls = s.calls := by
  unfold State.useTickDraw; split <;> rfl
@[simp] theorem State.useTickDraw_hostWork (s : State) : s.useTickDraw.hostWork = s.hostWork := by
  unfold State.useTickDraw; split <;> rfl
@[simp] theorem State.useTickDraw_snapInputs (s : State) : s.useTickDraw.snapInputs = s.snapInputs := by
  unfold State.useTickDraw; split <;> rfl
@[simp] theorem State.useSnapDraw_block (s : State) : s.useSnapDraw.block = s.block := by
  unfold State.useSnapDraw; split <;> rfl
@[simp] theorem State.useSnapDraw_cfg (s : State) : s.useSnapDraw.cfg = s.cfg := by
  unfold State.useSnapDraw; split <;> rfl
@[simp] theorem State.useSnapDraw_now (s : State) : s.useSnapDraw.now = s.now := by
  unfold State.useSnapDraw; split <;> rfl
@[simp] theorem State.useSnapDraw_log (s : State) : s.useSnapDraw.log = s.log := by
  unfold State.useSnapDraw; split <;> rfl
@[simp] theorem State.useSnapDraw_ret (s : State) : s.useSnapDraw.ret = s.ret := by
  unfold State.useSnapDraw; split <;> rfl
@[simp] theorem State.useSnapDraw_calls (s : State) : s.useSnapDraw.calls = s.calls := by
  unfold State.useSnapDraw; split <;> rfl
@[simp] theorem State.useSnapDraw_hostWork (s : State) : s.useSnapDraw.hostWork = s.hostWork := by
  unfold State.useSnapDraw; split <;> rfl
/-- A snapshot uses up one answer of the channel store, where there is one (R66, R67). -/
@[simp] theorem State.useSnapDraw_snapInputs (s : State) : s.useSnapDraw.snapInputs = s.snapInputs.tail := by
  unfold State.useSnapDraw; split <;> simp [*]
@[simp] theorem State.useSnapDraw_timeInputs (s : State) : s.useSnapDraw.timeInputs = s.timeInputs := by
  unfold State.useSnapDraw; split <;> rfl

@[simp] theorem State.elapse_block (s : State) : s.elapse.block = s.block := by simp [State.elapse]
@[simp] theorem State.elapse_cfg (s : State) : s.elapse.cfg = s.cfg := by simp [State.elapse]
theorem State.elapse_now (s : State) : s.elapse.now = s.now + s.tickDraw := rfl
@[simp] theorem State.elapse_log (s : State) : s.elapse.log = s.log := by simp [State.elapse]
@[simp] theorem State.elapse_ret (s : State) : s.elapse.ret = s.ret := by simp [State.elapse]
@[simp] theorem State.elapse_calls (s : State) : s.elapse.calls = s.calls := by simp [State.elapse]
@[simp] theorem State.elapse_hostWork (s : State) : s.elapse.hostWork = s.hostWork := by simp [State.elapse]
@[simp] theorem State.elapse_snapInputs (s : State) : s.elapse.snapInputs = s.snapInputs := by simp [State.elapse]
@[simp] theorem State.elapseUpTo_block (bound : Nat) (s : State) : (s.elapseUpTo bound).block = s.block := by simp [State.elapseUpTo]
@[simp] theorem State.elapseUpTo_cfg (bound : Nat) (s : State) : (s.elapseUpTo bound).cfg = s.cfg := by simp [State.elapseUpTo]
theorem State.elapseUpTo_now (bound : Nat) (s : State) : (s.elapseUpTo bound).now = s.now + s.tickDraw % (bound + 1) := rfl
@[simp] theorem State.elapseUpTo_log (bound : Nat) (s : State) : (s.elapseUpTo bound).log = s.log := by simp [State.elapseUpTo]
@[simp] theorem State.elapseUpTo_ret (bound : Nat) (s : State) : (s.elapseUpTo bound).ret = s.ret := by simp [State.elapseUpTo]
@[simp] theorem State.elapseUpTo_calls (bound : Nat) (s : State) : (s.elapseUpTo bound).calls = s.calls := by simp [State.elapseUpTo]
@[simp] theorem State.elapseUpTo_hostWork (bound : Nat) (s : State) : (s.elapseUpTo bound).hostWork = s.hostWork := by simp [State.elapseUpTo]
@[simp] theorem State.elapseUpTo_snapInputs (bound : Nat) (s : State) : (s.elapseUpTo bound).snapInputs = s.snapInputs := by simp [State.elapseUpTo]
@[simp] theorem State.readTime_block (s : State) : s.readTime.block = s.block := by simp [State.readTime, State.elapse]
@[simp] theorem State.readTime_cfg (s : State) : s.readTime.cfg = s.cfg := by simp [State.readTime, State.elapse]
theorem State.readTime_now (s : State) : s.readTime.now = s.now + s.tickDraw := rfl
@[simp] theorem State.readTime_log (s : State) : s.readTime.log = s.log := by simp [State.readTime, State.elapse]
@[simp] theorem State.readTime_ret (s : State) : s.readTime.ret = s.ret := by simp [State.readTime, State.elapse]
@[simp] theorem State.readTime_calls (s : State) : s.readTime.calls = s.calls := by simp [State.readTime, State.elapse]
@[simp] theorem State.readTime_hostWork (s : State) : s.readTime.hostWork = s.hostWork := by simp [State.readTime, State.elapse]
@[simp] theorem State.readTime_snapInputs (s : State) : s.readTime.snapInputs = s.snapInputs := by simp [State.readTime, State.elapse]
@[simp] theorem State.waitUntil_block (t : Nat) (s : State) : (s.waitUntil t).block = s.block := by simp [State.waitUntil]
@[simp] theorem State.waitUntil_cfg (t : Nat) (s : State) : (s.waitUntil t).cfg = s.cfg := by simp [State.waitUntil]
@[simp] theorem State.waitUntil_log (t : Nat) (s : State) : (s.waitUntil t).log = s.log := by simp [State.waitUntil]
@[simp] theorem State.waitUntil_ret (t : Nat) (s : State) : (s.waitUntil t).ret = s.ret := by simp [State.waitUntil]
@[simp] theorem State.waitUntil_calls (t : Nat) (s : State) : (s.waitUntil t).calls = s.calls := by simp [State.waitUntil]
@[simp] theorem State.waitUntil_hostWork (t : Nat) (s : State) : (s.waitUntil t).hostWork = s.hostWork := by simp [State.waitUntil]
@[simp] theorem State.waitUntil_snapInputs (t : Nat) (s : State) : (s.waitUntil t).snapInputs = s.snapInputs := by simp [State.waitUntil]
@[simp] theorem State.waitInCharacter_block (t : Nat) (s : State) : (s.waitInCharacter t).block = s.block := by simp [State.waitInCharacter]
@[simp] theorem State.waitInCharacter_cfg (t : Nat) (s : State) : (s.waitInCharacter t).cfg = s.cfg := by simp [State.waitInCharacter]
@[simp] theorem State.waitInCharacter_log (t : Nat) (s : State) : (s.waitInCharacter t).log = s.log := by simp [State.waitInCharacter]
@[simp] theorem State.waitInCharacter_ret (t : Nat) (s : State) : (s.waitInCharacter t).ret = s.ret := by simp [State.waitInCharacter]
@[simp] theorem State.waitInCharacter_calls (t : Nat) (s : State) : (s.waitInCharacter t).calls = s.calls := by simp [State.waitInCharacter]
@[simp] theorem State.waitInCharacter_hostWork (t : Nat) (s : State) : (s.waitInCharacter t).hostWork = s.hostWork := by simp [State.waitInCharacter]
@[simp] theorem State.waitInCharacter_snapInputs (t : Nat) (s : State) : (s.waitInCharacter t).snapInputs = s.snapInputs := by simp [State.waitInCharacter]

theorem State.waitUntil_now (t : Nat) (s : State) :
    (s.waitUntil t).now = max s.now t + s.tickDraw := rfl

theorem State.waitInCharacter_now (t : Nat) (s : State) : (s.waitInCharacter t).now =
    max s.now t + s.tickDraw % (t + s.cfg.edgeSlack - max s.now t + 1) := rfl

/-! ### The transient fields (R32) -/

theorem Block.clearTransients_noTransients (b : Block) : b.clearTransients.noTransients :=
  ⟨rfl, rfl, rfl, rfl, rfl, rfl⟩

theorem Block.clearTransients_of_noTransients {b : Block} (h : b.noTransients) :
    b.clearTransients = b := by
  obtain ⟨h1, h2, h3, h4, h5, h6⟩ := h
  cases b
  simp_all [Block.clearTransients]

@[simp] theorem Block.clearTransients_line (b : Block) : b.clearTransients.line = b.line := rfl
@[simp] theorem Block.clearTransients_irqMasked (b : Block) : b.clearTransients.irqMasked = b.irqMasked := rfl
@[simp] theorem Block.clearTransients_txState (b : Block) : b.clearTransients.txState = b.txState := rfl
@[simp] theorem Block.clearTransients_sentAny (b : Block) : b.clearTransients.sentAny = b.sentAny := rfl
@[simp] theorem Block.clearTransients_lastSend (b : Block) : b.clearTransients.lastSend = b.lastSend := rfl
@[simp] theorem Block.clearTransients_refused (b : Block) : b.clearTransients.refused = b.refused := rfl
@[simp] theorem Block.clearTransients_irqSaved (b : Block) : b.clearTransients.irqSaved = none := rfl
@[simp] theorem Block.clearTransients_crcAcc (b : Block) : b.clearTransients.crcAcc = none := rfl
@[simp] theorem Block.clearTransients_cursor (b : Block) : b.clearTransients.cursor = none := rfl
@[simp] theorem Block.clearTransients_frame (b : Block) : b.clearTransients.frame = none := rfl
@[simp] theorem Block.clearTransients_snap (b : Block) : b.clearTransients.snap = none := rfl
@[simp] theorem Block.clearTransients_t0 (b : Block) : b.clearTransients.t0 = none := rfl
@[simp] theorem Block.transientsFrom_line (b old : Block) : (b.transientsFrom old).line = b.line := rfl
@[simp] theorem Block.transientsFrom_irqMasked (b old : Block) : (b.transientsFrom old).irqMasked = b.irqMasked := rfl
@[simp] theorem Block.transientsFrom_txState (b old : Block) : (b.transientsFrom old).txState = b.txState := rfl
@[simp] theorem Block.transientsFrom_sentAny (b old : Block) : (b.transientsFrom old).sentAny = b.sentAny := rfl
@[simp] theorem Block.transientsFrom_lastSend (b old : Block) : (b.transientsFrom old).lastSend = b.lastSend := rfl
@[simp] theorem Block.transientsFrom_refused (b old : Block) : (b.transientsFrom old).refused = b.refused := rfl
@[simp] theorem Block.transientsFrom_irqSaved (b old : Block) : (b.transientsFrom old).irqSaved = old.irqSaved := rfl
@[simp] theorem Block.transientsFrom_crcAcc (b old : Block) : (b.transientsFrom old).crcAcc = old.crcAcc := rfl
@[simp] theorem Block.transientsFrom_cursor (b old : Block) : (b.transientsFrom old).cursor = old.cursor := rfl
@[simp] theorem Block.transientsFrom_frame (b old : Block) : (b.transientsFrom old).frame = old.frame := rfl
@[simp] theorem Block.transientsFrom_snap (b old : Block) : (b.transientsFrom old).snap = old.snap := rfl
@[simp] theorem Block.transientsFrom_t0 (b old : Block) : (b.transientsFrom old).t0 = old.t0 := rfl

end Sys2Proof.Machine
end

