-- ==== Sys2Proof/Laws/Run.lean ====
section
/-! SUPPORT. The shared operations once each: what a draw, a wait, a drive, a critical section, a refusal and the end of an operation can do; and the relation Ran that composes them. -/

namespace Sys2Proof.Machine

/-! ### Procedures that can stop -/

@[simp] theorem Op.ok_bind {α β : Type} (a : α) (f : α → Op β) : ((Except.ok a : Op α) >>= f) = f a := rfl

@[simp] theorem Op.error_bind {α β : Type} (e : Stop) (f : α → Op β) :
    ((Except.error e : Op α) >>= f) = .error e := rfl

@[simp] theorem Op.pure_eq {α : Type} (a : α) : (pure a : Op α) = .ok a := rfl

/-- A sequence completes just when its first part does and the rest completes from there. -/
theorem Op.bind_eq_ok {α β : Type} {x : Op α} {f : α → Op β} {b : β} :
    (x >>= f) = .ok b ↔ ∃ a, x = .ok a ∧ f a = .ok b := by
  cases x <;> simp

@[simp] theorem readField_some {α : Type} (f : Field) (a : α) : readField f (some a) = .ok a := rfl

@[simp] theorem readField_none {α : Type} (f : Field) :
    (readField f (none : Option α)) = .error (.fault (.unwrittenRead f)) := rfl

@[simp] theorem conclude_ok (s t : State) (r : Return) :
    conclude s (.ok (t, r)) = .next (t.complete r) := rfl

@[simp] theorem conclude_refuse (s : State) (r : RefuseReason) :
    conclude s (.error (.refuse r)) = .next (s.markRefused r) := rfl

@[simp] theorem conclude_fault (s : State) (f : Fault) :
    conclude s (.error (.fault f)) = .fault f := rfl

/-- All that the end of an operation can do: it answers the completed state, or the refused one. -/
theorem conclude_next {s t : State} {o : Op (State × Return)} (h : conclude s o = .next t) :
    (∃ u r, o = .ok (u, r) ∧ t = u.complete r) ∨
    (∃ r, o = .error (.refuse r) ∧ t = s.markRefused r) := by
  unfold conclude at h
  split at h
  · next u r => cases h; exact .inl ⟨u, r, rfl, rfl⟩
  · next r => cases h; exact .inr ⟨r, rfl, rfl⟩
  · cases h

theorem requireIdle_of_idle {s : State} (h : s.block.txState = .idle) : s.requireIdle = .ok () := by
  simp [State.requireIdle, h]

theorem requireIdle_of_not_idle {s : State} (h : s.block.txState ≠ .idle) :
    s.requireIdle = .error (.refuse .reentrantTransmit) := by
  simp [State.requireIdle, h]

/-! ### Times of events -/

theorem timesWithin_le {a b : Nat} {es : List Event} (h : timesWithin a b es = true) : a ≤ b := by
  induction es generalizing a with
  | nil => simpa [timesWithin] using h
  | cons e es ih =>
    simp only [timesWithin, Bool.and_eq_true, decide_eq_true_eq] at h
    exact h.1.trans (ih h.2)

theorem timesWithin_mono_left {a a' b : Nat} {es : List Event} (h : timesWithin a b es = true)
    (ha : a' ≤ a) : timesWithin a' b es = true := by
  cases es with
  | nil =>
    simp only [timesWithin, decide_eq_true_eq] at h ⊢
    exact ha.trans h
  | cons e es =>
    simp only [timesWithin, Bool.and_eq_true, decide_eq_true_eq] at h ⊢
    exact ⟨ha.trans h.1, h.2⟩

theorem timesWithin_append {a b c : Nat} {es fs : List Event} (he : timesWithin a b es = true)
    (hf : timesWithin b c fs = true) : timesWithin a c (es ++ fs) = true := by
  induction es generalizing a with
  | nil => exact timesWithin_mono_left hf (by simpa [timesWithin] using he)
  | cons e es ih =>
    simp only [timesWithin, List.cons_append, Bool.and_eq_true, decide_eq_true_eq] at he ⊢
    exact ⟨he.1, ih he.2⟩

@[simp] theorem lineHistory_append (es fs : List Event) :
    lineHistory (es ++ fs) = lineHistory es ++ lineHistory fs := by simp [lineHistory]

@[simp] theorem levels_append (es fs : List Event) : levels (es ++ fs) = levels es ++ levels fs := by
  simp [levels]

@[simp] theorem txTrace_append (es fs : List Event) : txTrace (es ++ fs) = txTrace es ++ txTrace fs := by
  simp [txTrace]

@[simp] theorem maskHistory_append (es fs : List Event) :
    maskHistory (es ++ fs) = maskHistory es ++ maskHistory fs := by simp [maskHistory]

@[simp] theorem hostAnswers_append (es fs : List Event) :
    hostAnswers (es ++ fs) = hostAnswers es ++ hostAnswers fs := by simp [hostAnswers]

/-- Pairs of EnterCritical and ExitCritical, one after the other. -/
theorem heldWithin_append {bound : Nat} : ∀ {l m : List (Nat × Bool)}, heldWithin bound l = true →
    heldWithin bound m = true → heldWithin bound (l ++ m) = true
  | [], _, _, hm => hm
  | [_], _, h, _ => by simp [heldWithin] at h
  | (a, x) :: (b, y) :: rest, m, h, hm => by
    simp only [heldWithin, Bool.and_eq_true] at h
    simp only [List.cons_append, heldWithin, Bool.and_eq_true]
    exact ⟨h.1, heldWithin_append h.2 hm⟩

@[simp] theorem hostWasRefused_append (es fs : List Event) :
    hostWasRefused (es ++ fs) = (hostWasRefused es || hostWasRefused fs) := by simp [hostWasRefused]

@[simp] theorem hostWasRefused_nil : hostWasRefused [] = false := rfl
@[simp] theorem hostWasRefused_host (t : Nat) (r : Return) :
    hostWasRefused [.host t r] = isRefusal r := by simp [hostWasRefused, hostAnswers, Event.host?]
@[simp] theorem hostWasRefused_drive (t : Nat) (l : Level) : hostWasRefused [.drive t l] = false := rfl

/-- Where host activity got no answer, it got no refusal. -/
theorem hostWasRefused_of_none {es : List Event} (h : hostAnswers es = []) :
    hostWasRefused es = false := by simp [hostWasRefused, h]

theorem isRefusal_of_ne {r : Return} (h : ∀ q, r ≠ .refused q) : isRefusal r = false := by
  cases r <;> first | rfl | exact absurd rfl (h _)

@[simp] theorem hostAnswers_tx (t : Nat) (x : TxState) : hostAnswers [.tx t x] = [] := rfl
@[simp] theorem hostAnswers_drive (t : Nat) (l : Level) : hostAnswers [.drive t l] = [] := rfl

@[simp] theorem levels_nil : levels [] = [] := rfl
@[simp] theorem levels_drive (t : Nat) (l : Level) (es : List Event) :
    levels (.drive t l :: es) = l :: levels es := rfl
@[simp] theorem levels_tx (t : Nat) (x : TxState) (es : List Event) :
    levels (.tx t x :: es) = levels es := rfl
@[simp] theorem levels_mask (t : Nat) (b : Bool) (es : List Event) :
    levels (.mask t b :: es) = levels es := rfl
@[simp] theorem levels_host (t : Nat) (r : Return) (es : List Event) :
    levels (.host t r :: es) = levels es := rfl
@[simp] theorem txTrace_nil : txTrace [] = [] := rfl
@[simp] theorem txTrace_drive (t : Nat) (l : Level) (es : List Event) :
    txTrace (.drive t l :: es) = txTrace es := rfl
@[simp] theorem txTrace_tx (t : Nat) (x : TxState) (es : List Event) :
    txTrace (.tx t x :: es) = x :: txTrace es := rfl
@[simp] theorem txTrace_mask (t : Nat) (b : Bool) (es : List Event) :
    txTrace (.mask t b :: es) = txTrace es := rfl
@[simp] theorem txTrace_host (t : Nat) (r : Return) (es : List Event) :
    txTrace (.host t r :: es) = txTrace es := rfl

/-! ### What a procedure of the block leaves alone -/

/-- From `s` to `t` the events `es` were observed, in time order, and nothing but the block, the clock
and the environment's inputs changed. -/
structure Ran (s t : State) (es : List Event) : Prop where
  log : t.log = s.log ++ es
  times : timesWithin s.now t.now es = true
  cfg : t.cfg = s.cfg
  ret : t.ret = s.ret
  calls : t.calls = s.calls

theorem Ran.refl (s : State) : Ran s s [] :=
  ⟨by simp, by simp [timesWithin], rfl, rfl, rfl⟩

theorem Ran.trans {s t u : State} {es fs : List Event} (h : Ran s t es) (k : Ran t u fs) :
    Ran s u (es ++ fs) :=
  ⟨by rw [k.log, h.log, List.append_assoc], timesWithin_append h.times k.times,
   k.cfg.trans h.cfg, k.ret.trans h.ret, k.calls.trans h.calls⟩

theorem Ran.now_le {s t : State} {es : List Event} (h : Ran s t es) : s.now ≤ t.now :=
  timesWithin_le h.times

theorem ran_elapse (s : State) : Ran s s.elapse [] :=
  ⟨by simp, by simp [timesWithin, State.elapse_now], by simp, by simp, by simp⟩

theorem ran_elapseUpTo (b : Nat) (s : State) : Ran s (s.elapseUpTo b) [] :=
  ⟨by simp, by simp [timesWithin, State.elapseUpTo_now], by simp, by simp, by simp⟩

theorem elapseUpTo_now_le (b : Nat) (s : State) : (s.elapseUpTo b).now ≤ s.now + b :=
  Nat.add_le_add_left (Nat.le_of_lt_succ (Nat.mod_lt _ (Nat.succ_pos b))) _

theorem ran_readTime (s : State) : Ran s s.readTime [] := ran_elapse s

theorem ran_drive (l : Level) (s : State) : Ran s (s.drive l) [.drive s.now l] :=
  ⟨rfl, by simp [timesWithin, Event.time], rfl, rfl, rfl⟩

theorem ran_setTx (x : TxState) (s : State) : Ran s (s.setTx x) [.tx s.now x] :=
  ⟨rfl, by simp [timesWithin, Event.time], rfl, rfl, rfl⟩

theorem ran_setT0 (t : Nat) (s : State) : Ran s (s.setT0 t) [] :=
  ⟨by simp, by simp [timesWithin], rfl, rfl, rfl⟩

theorem ran_driveUnmasked (l : Level) (s : State) :
    Ran s (s.driveUnmasked l) [.drive s.elapse.now l] :=
  (ran_elapse s).trans (ran_drive l s.elapse)

@[simp] theorem driveUnmasked_block (l : Level) (s : State) :
    (s.driveUnmasked l).block = { s.block with line := l } := by simp [State.driveUnmasked]

@[simp] theorem driveUnmasked_hostWork (l : Level) (s : State) :
    (s.driveUnmasked l).hostWork = s.hostWork := by simp [State.driveUnmasked]

/-- `WaitUntil` outside a critical section ends at a time of at least its target (R249). -/
theorem waitUntil_ge (t : Nat) (s : State) : t ≤ (s.waitUntil t).now := by
  rw [State.waitUntil_now]; omega

theorem ran_waitUntil (t : Nat) (s : State) : Ran s (s.waitUntil t) [] := by
  refine ⟨by simp, ?_, by simp, by simp, by simp⟩
  rw [timesWithin, State.waitUntil_now, decide_eq_true_eq]
  omega

/-- `WaitUntil` inside a critical section ends at a time of at least its target (R249). -/
theorem waitInCharacter_ge (t : Nat) (s : State) : t ≤ (s.waitInCharacter t).now := by
  rw [State.waitInCharacter_now]; omega

/-- Entered by `t + EDGE_SLACK`, it ends by `t + EDGE_SLACK` (R189(a)). -/
theorem waitInCharacter_le (t : Nat) (s : State) (h : s.now ≤ t + s.cfg.edgeSlack) :
    (s.waitInCharacter t).now ≤ t + s.cfg.edgeSlack := by
  have := Nat.le_of_lt_succ (Nat.mod_lt s.tickDraw
    (Nat.succ_pos (t + s.cfg.edgeSlack - max s.now t)))
  rw [State.waitInCharacter_now]
  simp only [Nat.succ_eq_add_one] at this
  omega

theorem ran_waitInCharacter (t : Nat) (s : State) : Ran s (s.waitInCharacter t) [] := by
  refine ⟨by simp, ?_, by simp, by simp, by simp⟩
  rw [timesWithin, State.waitInCharacter_now, decide_eq_true_eq]
  omega

theorem ran_enterCritical (s : State) : Ran s s.enterCritical [.mask s.now true] :=
  ⟨rfl, by simp [timesWithin, Event.time], rfl, rfl, rfl⟩

/-- `ExitCritical` puts back the saved mask (R242). -/
theorem exitCritical_of_saved {s : State} {m : Bool} (h : s.block.irqSaved = some m) :
    s.exitCritical =
      .ok { s with block.irqMasked := m, log := s.log ++ [.mask s.now m] } := by
  simp [State.exitCritical, h]

/-! ### The gate -/

theorem gateOpen_of_unsent {s : State} (now : Nat) (h : s.block.sentAny = false) :
    s.gateOpen now = .ok true := by simp [State.gateOpen, h]

theorem gateOpen_of_sent {s : State} {last : Nat} (now : Nat) (h : s.block.sentAny = true)
    (hl : s.block.lastSend = some last) :
    s.gateOpen now = .ok (decide ((s.cfg.intervalTicks : Int) ≤ elapsedTicks s.cfg now last)) := by
  simp [State.gateOpen, h, hl]

/-- All the gate can do: it answers, or it faults on an unwritten `last_send` (R40, R48). -/
theorem gateOpen_cases (s : State) (now : Nat) :
    (∃ b, s.gateOpen now = .ok b) ∨
    (s.block.sentAny = true ∧ s.block.lastSend = none ∧
      s.gateOpen now = .error (.fault (.unwrittenRead .lastSend))) := by
  cases h : s.block.sentAny
  · exact .inl ⟨_, gateOpen_of_unsent now h⟩
  · cases hl : s.block.lastSend
    · exact .inr ⟨rfl, rfl, by simp [State.gateOpen, h, hl]⟩
    · exact .inl ⟨_, gateOpen_of_sent now h hl⟩

/-! ### The next call -/

theorem fetch_nil {s : State} (h : s.calls = []) : s.fetch = none := by simp [State.fetch, h]

/-- The state an operation starts in, when the caller makes the call of arrival `a` (R36, R101). -/
theorem fetch_cons {s : State} {a : Arrival} {rest : List Arrival} (h : s.calls = a :: rest) :
    s.fetch = some ({ s with calls := rest, now := max s.now a.notBefore,
                             block.irqMasked := a.hostMask.getD s.block.irqMasked }, a.call) := by
  simp [State.fetch, h]

end Sys2Proof.Machine
end

