-- ==== Sys2Proof/Laws/Pure.lean ====
section
/-! SUPPORT. What the Checksum Engine, the Channel Packer and the Frame Builder answer, as functions of their operands; and what host activity can do in a window. -/

namespace Sys2Proof.Machine

/-! ### CRC8 (R121) -/

theorem crcLoop_eq (bytes : List Byte) (s : State) (a : Byte) :
    crcLoop bytes (s.setCrcAcc a) = .ok (s.setCrcAcc (bytes.foldl crcByte a)) := by
  induction bytes generalizing a with
  | nil => rfl
  | cons b rest ih =>
    simp only [crcLoop, State.setCrcAcc_block, readField_some, Op.ok_bind, List.foldl_cons]
    exact ih (crcByte a b)

theorem runCrc8_of_le {buf : List Byte} {length : Nat} (h : length ≤ buf.length) (s : State) :
    runCrc8 buf length s = .ok (s.setCrcAcc (crcOf (buf.take length)), crcOf (buf.take length)) := by
  simp [runCrc8, Nat.not_lt.mpr h, crcLoop_eq, crcOf]

theorem runCrc8_of_lt {buf : List Byte} {length : Nat} (h : buf.length < length) (s : State) :
    runCrc8 buf length s = .error (.refuse .crcLengthBeyondBuffer) := by simp [runCrc8, h]

/-! ### PACK and UNPACK (R140, R141) -/

theorem packLoop_eq (values : List Half) (out : List Byte) (cursor : Nat) (s : State) :
    packLoop values out (s.setCursor cursor) =
      .ok (s.setCursor (cursor + channelBits * values.length), packFrom values cursor out) := by
  induction values generalizing out cursor with
  | nil => simp [packLoop, packFrom]
  | cons v rest ih =>
    simp only [packLoop, State.setCursor_block, readField_some, Op.ok_bind, packFrom]
    have e : cursor + channelBits * (v :: rest).length =
        (cursor + channelBits) + channelBits * rest.length := by simp [Nat.mul_add]; omega
    rw [e]
    exact ih _ _

/-- PACK ends with the cursor at bit 176 (R43, R89). -/
theorem runPack_of_length {values : List Half} (h : values.length = numChannels) (s : State) :
    runPack values s = .ok (s.setCursor 176, packOf values) := by
  simp [runPack, h, packLoop_eq, packOf, channelBits, numChannels]

theorem runPack_of_ne {values : List Half} (h : values.length ≠ numChannels) (s : State) :
    runPack values s = .error (.refuse .wrongChannelCount) := by simp [runPack, h]

@[simp] theorem orStreamBit_length (p : Nat) (bit : Bool) (out : List Byte) :
    (orStreamBit p bit out).length = out.length := by simp [orStreamBit]

@[simp] theorem packLane_length (v : Half) (cursor : Nat) (out : List Byte) :
    (packLane v cursor out).length = out.length := by
  unfold packLane
  induction List.range channelBits generalizing out with
  | nil => rfl
  | cons j js ih => simp [ih]

@[simp] theorem packFrom_length (values : List Half) (cursor : Nat) (out : List Byte) :
    (packFrom values cursor out).length = out.length := by
  induction values generalizing cursor out with
  | nil => rfl
  | cons v rest ih => simp [packFrom, ih]

@[simp] theorem packOf_length (values : List Half) : (packOf values).length = 22 := by
  simp [packOf, payloadSize]

@[simp] theorem unpackOf_length (payload : List Byte) : (unpackOf payload).length = 16 := by
  simp [unpackOf, numChannels]

/-! ### BUILD_FRAME (R160) -/

@[simp] theorem frameOf_length (c : Config) (snap : List Half) : (frameOf c snap).length = 26 := by
  simp [frameOf, frameLayout]

theorem runBuildFrame_of_length {snap : List Half} (h : snap.length = numChannels) (s : State) :
    runBuildFrame snap s =
      .ok ((((s.setSnap snap).setCursor 176).setCrcAcc (crcOf (frameType :: packOf snap))).setFrame
        (frameOf s.cfg snap), frameOf s.cfg snap) := by
  have hl : 23 ≤ (frameType :: packOf snap).length := by simp
  have ht : (frameType :: packOf snap).take 23 = frameType :: packOf snap := by
    rw [List.take_of_length_le]; simp
  simp [runBuildFrame, h, runPack_of_length h, runCrc8_of_le hl, ht, frameOf]

theorem runBuildFrame_of_ne {snap : List Half} (h : snap.length ≠ numChannels) (s : State) :
    runBuildFrame snap s = .error (.refuse .wrongChannelCount) := by simp [runBuildFrame, h]

theorem opCrc8_of_le {buf : List Byte} {length : Nat} (h : length ≤ buf.length) (s : State) :
    opCrc8 buf length s =
      .ok (s.setCrcAcc (crcOf (buf.take length)), .byte (crcOf (buf.take length))) := by
  simp [opCrc8, runCrc8_of_le h]

theorem opPack_of_length {values : List Half} (h : values.length = numChannels) (s : State) :
    opPack values s = .ok (s.setCursor 176, .bytes (packOf values)) := by
  simp [opPack, runPack_of_length h]

theorem opUnpack_of_length {payload : List Byte} (h : payload.length = payloadSize) (s : State) :
    opUnpack payload s = .ok (s, .halves (unpackOf payload)) := by
  simp [opUnpack, h]

theorem opBuildFrame_of_length {snap : List Half} (h : snap.length = numChannels) (s : State) :
    opBuildFrame snap s =
      .ok ((((s.setSnap snap).setCursor 176).setCrcAcc (crcOf (frameType :: packOf snap))).setFrame
        (frameOf s.cfg snap), .bytes (frameOf s.cfg snap)) := by
  simp [opBuildFrame, runBuildFrame_of_length h]

/-! ### The pure operations -/

/-- Whatever a pure operation does, it completes with an answer and only transient fields changed, or is
refused. -/
def PureRun (s : State) (o : Op (State × Return)) : Prop :=
  (∃ b r, o = .ok ({ s with block := b }, r) ∧ b.transientsFrom s.block = s.block ∧
    ∀ q, r ≠ .refused q) ∨
  (∃ r, o = .error (.refuse r))

theorem pureRun_crc8Byte (acc b : Byte) (s : State) : PureRun s (opCrc8Byte acc b s) :=
  .inl ⟨_, _, rfl, rfl, by simp⟩

theorem pureRun_crc8 (buf : List Byte) (length : Nat) (s : State) :
    PureRun s (opCrc8 buf length s) := by
  rcases Nat.lt_or_ge buf.length length with h | h
  · exact .inr ⟨.crcLengthBeyondBuffer, by simp [opCrc8, runCrc8_of_lt h]⟩
  · rw [opCrc8_of_le h]; exact .inl ⟨_, _, rfl, rfl, by simp⟩

theorem pureRun_pack (values : List Half) (s : State) : PureRun s (opPack values s) := by
  by_cases h : values.length = numChannels
  · rw [opPack_of_length h]; exact .inl ⟨_, _, rfl, rfl, by simp⟩
  · exact .inr ⟨.wrongChannelCount, by simp [opPack, runPack_of_ne h]⟩

theorem pureRun_unpack (payload : List Byte) (s : State) : PureRun s (opUnpack payload s) := by
  by_cases h : payload.length = payloadSize
  · rw [opUnpack_of_length h]; exact .inl ⟨_, _, rfl, rfl, by simp⟩
  · exact .inr ⟨.wrongPayloadSize, by simp [opUnpack, h]⟩

theorem pureRun_buildFrame (snap : List Half) (s : State) : PureRun s (opBuildFrame snap s) := by
  by_cases h : snap.length = numChannels
  · rw [opBuildFrame_of_length h]; exact .inl ⟨_, _, rfl, rfl, by simp⟩
  · exact .inr ⟨.wrongChannelCount, by simp [opBuildFrame, runBuildFrame_of_ne h]⟩

/-! ### Host activity (R243, R256) -/

/-- The events are results of operations called by host activity, and nothing else. -/
def hostOnly (es : List Event) : Prop := ∀ e ∈ es, ∃ t r, e = .host t r

theorem hostOnly.append {es fs : List Event} (h : hostOnly es) (k : hostOnly fs) :
    hostOnly (es ++ fs) := by
  intro e he
  rcases List.mem_append.mp he with he | he
  · exact h e he
  · exact k e he

theorem hostOnly.lineHistory {es : List Event} (h : hostOnly es) : lineHistory es = [] := by
  induction es with
  | nil => rfl
  | cons e es ih =>
    obtain ⟨t, r, rfl⟩ := h e (by simp)
    have := ih fun x hx => h x (by simp [hx])
    simpa [Machine.lineHistory, Event.drive?] using this

theorem hostOnly.levels {es : List Event} (h : hostOnly es) : levels es = [] := by
  simp [Machine.levels, h.lineHistory]

theorem hostOnly.txTrace {es : List Event} (h : hostOnly es) : txTrace es = [] := by
  induction es with
  | nil => rfl
  | cons e es ih =>
    obtain ⟨t, r, rfl⟩ := h e (by simp)
    have := ih fun x hx => h x (by simp [hx])
    simpa [Machine.txTrace, Event.tx?] using this

theorem hostOnly.maskHistory {es : List Event} (h : hostOnly es) : maskHistory es = [] := by
  induction es with
  | nil => rfl
  | cons e es ih =>
    obtain ⟨t, r, rfl⟩ := h e (by simp)
    have := ih fun x hx => h x (by simp [hx])
    simpa [Machine.maskHistory, Event.mask?] using this

/-- Each event is one answer. -/
theorem hostOnly.hostAnswers {es : List Event} (h : hostOnly es) :
    (hostAnswers es).length = es.length := by
  induction es with
  | nil => rfl
  | cons e es ih =>
    obtain ⟨t, r, rfl⟩ := h e (by simp)
    have := ih fun x hx => h x (by simp [hx])
    simpa [Machine.hostAnswers, Event.host?] using this

theorem hostOnly.maskOk {es : List Event} (h : hostOnly es) (rest : List Event) :
    Machine.maskOk false none (es ++ rest) = Machine.maskOk false none rest := by
  induction es with
  | nil => rfl
  | cons e es ih =>
    obtain ⟨t, r, rfl⟩ := h e (by simp)
    simpa [Machine.maskOk] using ih fun x hx => h x (by simp [hx])

/-- What host activity may leave behind in the block: the refusal mark set, and nothing else. -/
structure HostRan (s t : State) (es : List Event) : Prop extends Ran s t es where
  block : t.block = { s.block with refused := t.block.refused }
  refused : t.block.refused = (s.block.refused || hostWasRefused es)
  events : hostOnly es
  snapInputs : t.snapInputs = s.snapInputs

theorem HostRan.refl (s : State) : HostRan s s [] :=
  ⟨Ran.refl s, rfl, by simp, by simp [hostOnly], rfl⟩

theorem HostRan.trans {s t u : State} {es fs : List Event} (h : HostRan s t es) (k : HostRan t u fs) :
    HostRan s u (es ++ fs) :=
  ⟨h.toRan.trans k.toRan, by rw [k.block, h.block], by simp [k.refused, h.refused, Bool.or_assoc],
   h.events.append k.events,
   k.snapInputs.trans h.snapInputs⟩

theorem hostRan_refused (r : RefuseReason) (s : State) :
    HostRan s (s.hostRefused r) [.host s.now (.refused r)] :=
  ⟨⟨rfl, by simp [timesWithin, Event.time], rfl, rfl, rfl⟩, rfl, by simp [isRefusal], by simp [hostOnly], rfl⟩

theorem concludeHost_ran {s : State} {o : Op (State × Return)} (h : PureRun s o) :
    ∃ t r, concludeHost s o = .ok t ∧ HostRan s t [.host s.now r] ∧ t.hostWork = s.hostWork ∧
      t.now = s.now := by
  obtain ⟨b, r, rfl, hb, hr⟩ | ⟨r, rfl⟩ := h
  · exact ⟨_, r, rfl, ⟨⟨rfl, by simp [timesWithin, Event.time], rfl, rfl, rfl⟩, by simp [hb],
      by simp [hb, isRefusal_of_ne hr], by simp [hostOnly], rfl⟩, rfl, rfl⟩
  · exact ⟨_, _, rfl, hostRan_refused r s, rfl, rfl⟩

/-- A call by host activity always returns, takes no time, and leaves at most the refusal mark (R256). -/
theorem hostCall_ran (c : Call) (s : State) :
    ∃ t r, hostCall c s = .ok t ∧ HostRan s t [.host s.now r] ∧ t.hostWork = s.hostWork ∧
      t.now = s.now := by
  unfold hostCall
  split
  · exact ⟨_, _, rfl, hostRan_refused _ s, rfl, rfl⟩
  · exact concludeHost_ran (pureRun_crc8Byte _ _ s)
  · exact concludeHost_ran (pureRun_crc8 _ _ s)
  · exact concludeHost_ran (pureRun_pack _ s)
  · exact concludeHost_ran (pureRun_unpack _ s)
  · exact concludeHost_ran (pureRun_buildFrame _ s)
  all_goals exact ⟨_, _, rfl, hostRan_refused _ s, rfl, rfl⟩

theorem hostCalls_ran (cs : List Call) (s : State) :
    ∃ t es, hostCalls cs s = .ok t ∧ HostRan s t es ∧ es.length = cs.length ∧
      t.hostWork = s.hostWork ∧ ∃ rs : List Return, es = rs.map (Event.host s.now) := by
  induction cs generalizing s with
  | nil => exact ⟨s, [], rfl, HostRan.refl s, rfl, rfl, [], rfl⟩
  | cons c rest ih =>
    obtain ⟨u, r, hu, h1, hw1, hn⟩ := hostCall_ran c s
    obtain ⟨t, es, ht, h2, hl, hw2, rs, hrs⟩ := ih u
    exact ⟨t, _, by simp [hostCalls, hu, ht], h1.trans h2, by simp [hl], hw2.trans hw1, r :: rs, by simp [hrs, hn]⟩

@[simp] theorem windowsRun_zero (m : Bool) : windowsRun m 0 = 0 := by cases m <;> rfl

theorem windowsRun_add (m : Bool) (a b : Nat) :
    windowsRun m a + windowsRun m b = windowsRun m (a + b) := by cases m <;> simp [windowsRun]

/-- A window always ends; no host activity runs in it while interrupts are masked, or where the host
has no batch of calls to make, and otherwise the next batch runs (R188, R243). -/
theorem hostWindow_ran (s : State) :
    ∃ t es, hostWindow s = .ok t ∧ HostRan s t es ∧
      (s.block.irqMasked = true → es = []) ∧
      (s.hostWork = [] → es = [] ∧ t.block = s.block ∧ t.hostWork = []) ∧
      t.hostWork = s.hostWork.drop (windowsRun s.block.irqMasked 1) ∧
      es.length = ((s.hostWork.take (windowsRun s.block.irqMasked 1)).map List.length).sum ∧
      isWindow s.block.irqMasked s.hostWork es := by
  have h0 : HostRan s s.elapse [] := ⟨ran_elapse s, by simp, by simp, by simp [hostOnly], by simp⟩
  by_cases hm : s.block.irqMasked = true
  · exact ⟨s.elapse, [], by simp [hostWindow, hm], h0, fun _ => rfl,
      fun hw => ⟨rfl, by simp, by simpa using hw⟩, by simp [windowsRun, hm], by simp [windowsRun, hm],
      0, [], rfl, by simp [hm]⟩
  · cases hw : s.hostWork with
    | nil =>
      exact ⟨s.elapse, [], by simp [hostWindow, hm, hw], h0, fun _ => rfl,
        fun _ => ⟨rfl, by simp, by simp [hw]⟩, by simp [hw], by simp, 0, [], rfl, by simp⟩
    | cons batch rest =>
      obtain ⟨t, es, ht, h1, hlen, hwt, rs, hrs⟩ := hostCalls_ran batch { s.elapse with hostWork := rest }
      have h2 : HostRan s.elapse { s.elapse with hostWork := rest } [] :=
        ⟨⟨by simp, by simp [timesWithin], rfl, rfl, rfl⟩, rfl, by simp, by simp [hostOnly], rfl⟩
      have hm' : s.elapse.block.irqMasked = false := by simpa using hm
      have hw' : s.elapse.hostWork = batch :: rest := by simpa using hw
      refine ⟨t, es, ?_, by simpa using (h0.trans h2).trans h1, fun h => absurd h hm, by simp,
        by simp [hwt, windowsRun, hm], by simp [hlen, windowsRun, hm], _, rs, hrs, ?_⟩
      · simp only [hostWindow, hm', hw', Bool.false_eq_true, if_false]
        exact ht
      · simpa [hrs, hm] using hlen

end Sys2Proof.Machine
end

