-- ==== Sys2Proof/Laws/Bits.lean ====
section
/-! SUPPORT. The payload's bit stream: what each write into it leaves in each stream bit, and what each channel field reads from it. -/

namespace Sys2Proof.Machine

/-- Writing a bit into the stream ORs it into that stream bit and leaves every other one (R86). -/
theorem streamBit_orStreamBit (p q : Nat) (bit : Bool) (out : List Byte) (h : p / 8 < out.length) :
    streamBit (orStreamBit p bit out) q = (streamBit out q || (decide (q = p) && bit)) := by
  unfold streamBit orStreamBit
  rw [List.getD_eq_getElem?_getD, List.getElem?_modify, List.getD_eq_getElem?_getD]
  by_cases hd : p / 8 = q / 8
  · have hq : q / 8 < out.length := by omega
    simp only [hd, if_true, List.getElem?_eq_getElem hq, Option.getD_some]
    have hm : q = p ↔ q % 8 = p % 8 := by omega
    have h8 : q % 8 < 8 := Nat.mod_lt _ (by decide)
    cases bit
    · simp
    · simp only [if_true, Bool.and_true]
      by_cases he : q = p
      · simp [he, Nat.mod_lt]
      · have hne : q % 8 ≠ p % 8 := fun e => he (hm.mpr e)
        rcases Nat.lt_or_gt_of_ne hne with hlt | hgt
        · simp [he, hlt]
        · have : q % 8 - p % 8 ≠ 0 := by omega
          simp [he, this]
  · have he : q ≠ p := by rintro rfl; exact hd rfl
    simp [hd, he]

/-- The bits of a lane, from bit 0 up to bit `n`, written at a cursor. -/
theorem streamBit_packLane_aux (v : Half) (cursor q : Nat) (n : Nat) : ∀ out : List Byte,
    n ≤ 11 → (∀ j, j < n → (cursor + j) / 8 < out.length) →
    streamBit ((List.range n).foldl (fun o j => orStreamBit (cursor + j) ((lane v).getLsbD j) o) out) q =
      (streamBit out q || (decide (cursor ≤ q ∧ q < cursor + n) && v.getLsbD (q - cursor))) := by
  induction n with
  | zero =>
    intro out _ _
    have : ¬ (cursor ≤ q ∧ q < cursor) := by omega
    simp [this]
  | succ n ih =>
    intro out hn hl
    have hlen : ((List.range n).foldl (fun o j => orStreamBit (cursor + j) ((lane v).getLsbD j) o)
        out).length = out.length := by
      clear ih hl hn
      generalize List.range n = js
      induction js generalizing out with
      | nil => rfl
      | cons j js ih => simp [ih]
    rw [List.range_succ, List.foldl_append, List.foldl_cons, List.foldl_nil,
      streamBit_orStreamBit _ _ _ _ (by rw [hlen]; exact hl n (by omega)),
      ih out (by omega) (fun j hj => hl j (by omega)), Bool.or_assoc]
    congr 1
    have hlane : (lane v).getLsbD n = v.getLsbD n := by
      have : n < 11 := by omega
      simp [lane, this]
    rw [hlane]
    by_cases he : q = cursor + n
    · subst he
      simp
    · have h1 : (cursor ≤ q ∧ q < cursor + n) ↔ (cursor ≤ q ∧ q < cursor + (n + 1)) := by omega
      simp [he, h1]

/-- A lane fills exactly the 11 stream bits from its cursor on (R86, R140). -/
theorem streamBit_packLane (v : Half) (cursor q : Nat) (out : List Byte)
    (h : cursor + 11 ≤ 8 * out.length) :
    streamBit (packLane v cursor out) q =
      (streamBit out q || (decide (cursor ≤ q ∧ q < cursor + 11) && v.getLsbD (q - cursor))) :=
  streamBit_packLane_aux v cursor q 11 out (le_refl _) (fun j hj => by omega)

/-- The lanes of a list of values fill the stream from the cursor on, 11 bits each, and leave the rest
(R86, R89). -/
theorem streamBit_packFrom (values : List Half) : ∀ (cursor q : Nat) (out : List Byte),
    cursor + 11 * values.length ≤ 8 * out.length →
    streamBit (packFrom values cursor out) q =
      (streamBit out q || (decide (cursor ≤ q ∧ q < cursor + 11 * values.length) &&
        (values.getD ((q - cursor) / 11) 0#16).getLsbD ((q - cursor) % 11))) := by
  induction values with
  | nil =>
    intro cursor q out _
    have : ¬ (cursor ≤ q ∧ q < cursor) := by omega
    simp [packFrom, this]
  | cons v rest ih =>
    intro cursor q out h
    simp only [List.length_cons] at h
    rw [packFrom, ih (cursor + channelBits) q _ (by simp [channelBits]; omega),
      streamBit_packLane v cursor q out (by omega), Bool.or_assoc]
    congr 1
    simp only [channelBits, List.length_cons]
    by_cases h1 : cursor ≤ q ∧ q < cursor + 11
    · have h2 : ¬ (cursor + 11 ≤ q ∧ q < cursor + 11 + 11 * rest.length) := by omega
      have h3 : cursor ≤ q ∧ q < cursor + 11 * (rest.length + 1) := by omega
      have h4 : (q - cursor) / 11 = 0 := by omega
      have h5 : (q - cursor) % 11 = q - cursor := by omega
      simp [h1, h2, h3, h4, h5]
    · by_cases h2 : cursor + 11 ≤ q ∧ q < cursor + 11 + 11 * rest.length
      · have h3 : cursor ≤ q ∧ q < cursor + 11 * (rest.length + 1) := by omega
        have h4 : (q - cursor) / 11 = (q - (cursor + 11)) / 11 + 1 := by omega
        have h5 : (q - cursor) % 11 = (q - (cursor + 11)) % 11 := by omega
        simp [h2, h3, h4, h5]
      · have h3 : ¬ (cursor ≤ q ∧ q < cursor + 11 * (rest.length + 1)) := by omega
        simp [h1, h2, h3]

/-- Every bit of a packed payload: stream bit `q` is bit `q mod 11` of value `q div 11` (R86). -/
theorem streamBit_packOf {values : List Half} (h : values.length = 16) {q : Nat} (hq : q < 176) :
    streamBit (packOf values) q = (values.getD (q / 11) 0#16).getLsbD (q % 11) := by
  have h0 : streamBit (List.replicate payloadSize 0#8) q = false := by
    simp only [streamBit, payloadSize, List.getD_eq_getElem?_getD, List.getElem?_replicate]
    split <;> simp
  rw [packOf, streamBit_packFrom values 0 q _ (by simp [h, payloadSize]), h0]
  have : 0 ≤ q ∧ q < 0 + 11 * values.length := by omega
  simp [h, hq]

/-- The bits of a channel field, up to bit `n`. -/
theorem channelField_aux (payload : List Byte) (i : Nat) (n m : Nat) (hm : m < 16) : n ≤ 11 →
    ((List.range n).foldl (fun v j => v |||
      ((if streamBit payload (11 * i + j) then 1#16 else 0#16) <<< j)) 0#16).getLsbD m =
      (decide (m < n) && streamBit payload (11 * i + m)) := by
  induction n with
  | zero => intro _; simp
  | succ n ih =>
    intro hn
    rw [List.range_succ, List.foldl_append, List.foldl_cons, List.foldl_nil, BitVec.getLsbD_or,
      ih (by omega)]
    by_cases he : m = n
    · subst he
      cases streamBit payload (11 * i + m) <;> simp [hm]
    · have h1 : (m < n + 1) ↔ (m < n) := by omega
      have h2 : ((if streamBit payload (11 * i + n) then 1#16 else 0#16) <<< n).getLsbD m = false := by
        cases streamBit payload (11 * i + n)
        · simp
        · simp only [if_true, BitVec.getLsbD_shiftLeft]
          rcases Nat.lt_or_gt_of_ne he with hlt | hgt
          · simp [hlt]
          · have : m - n ≠ 0 := by omega
            simp [this]
      simp [h1, h2]

/-- Every bit of an unpacked channel: bit `m` is stream bit `11*i + m`, zero from bit 11 on (R87). -/
theorem channelField_getLsbD (payload : List Byte) (i m : Nat) :
    (channelField payload i).getLsbD m = (decide (m < 11) && streamBit payload (11 * i + m)) := by
  by_cases hm : m < 16
  · exact channelField_aux payload i 11 m hm (le_refl _)
  · have : ¬ m < 11 := by omega
    simp only [this, decide_false, Bool.false_and]
    exact BitVec.getLsbD_of_ge _ _ (by omega)

end Sys2Proof.Machine
end

