-- ==== Sys2Proof/Laws/Transmit.lean ====
section
/-! SUPPORT. What the Timed Bit Transmitter and the Periodic Driver do, once for each procedure: the events it adds, their times, and the block it leaves. -/

namespace Sys2Proof.Machine

/-! ### Drives at given times -/

/-- Drives of the levels at the times, in order. -/
def drivesAt (ts : List Nat) (ls : List Level) : List Event := List.zipWith Event.drive ts ls

@[simp] theorem drivesAt_cons (t : Nat) (ts : List Nat) (l : Level) (ls : List Level) :
    drivesAt (t :: ts) (l :: ls) = .drive t l :: drivesAt ts ls := rfl

theorem drivesAt_lineHistory (ts : List Nat) (ls : List Level) :
    lineHistory (drivesAt ts ls) = ts.zip ls := by
  induction ts generalizing ls with
  | nil => rfl
  | cons t ts ih =>
    cases ls with
    | nil => rfl
    | cons l ls => simpa [lineHistory, Event.drive?] using ih ls

theorem drivesAt_levels {ts : List Nat} {ls : List Level} (h : ts.length = ls.length) :
    levels (drivesAt ts ls) = ls := by
  rw [levels, drivesAt_lineHistory]
  exact List.map_snd_zip (by omega)

theorem drivesAt_txTrace (ts : List Nat) (ls : List Level) : txTrace (drivesAt ts ls) = [] := by
  induction ts generalizing ls with
  | nil => rfl
  | cons t ts ih =>
    cases ls with
    | nil => rfl
    | cons l ls => simpa [txTrace, Event.tx?] using ih ls

theorem drivesAt_maskHistory (ts : List Nat) (ls : List Level) : maskHistory (drivesAt ts ls) = [] := by
  induction ts generalizing ls with
  | nil => rfl
  | cons t ts ih =>
    cases ls with
    | nil => rfl
    | cons l ls => simpa [maskHistory, Event.mask?] using ih ls

theorem drivesAt_hostAnswers (ts : List Nat) (ls : List Level) : hostAnswers (drivesAt ts ls) = [] := by
  induction ts generalizing ls with
  | nil => rfl
  | cons t ts ih =>
    cases ls with
    | nil => rfl
    | cons l ls => simpa [hostAnswers, Event.host?] using ih ls

/-- Drives leave the mask bookkeeping where it was. -/
theorem drivesAt_maskOk (found : Bool) (held : Option Bool) (ts : List Nat) (ls : List Level)
    (rest : List Event) : maskOk found held (drivesAt ts ls ++ rest) = maskOk found held rest := by
  induction ts generalizing ls with
  | nil => rfl
  | cons t ts ih =>
    cases ls with
    | nil => rfl
    | cons l ls => cases held <;> simpa [maskOk] using ih ls

/-! ### Characters (R181, R189) -/

theorem slotBoundary_mono (c : Config) {j k : Nat} (h : j ≤ k) :
    slotBoundary c j ≤ slotBoundary c k :=
  Nat.div_le_div_right (Nat.mul_le_mul_right _ h)

@[simp] theorem slotBoundary_zero (c : Config) : slotBoundary c 0 = 0 := by simp [slotBoundary]

@[simp] theorem charLevels_length (b : Byte) : (charLevels b).length = 10 := by
  simp [charLevels, charBits]

/-- The levels of a character are those that R91 states. -/
theorem charLevels_eq_charShape (b : Byte) : charLevels b = charShape b := by
  simp [charLevels, charShape, charBits, List.range, List.range.loop, slotLevel, slotBit, slotShape, inv]

/-- The slots from `k` on: each is driven in its window of R189(a), and the loop ends in the window of
the last boundary. -/
theorem slotLoop_spec (b : Byte) (n : Nat) : ∀ (k : Nat) (s : State) (t0 : Nat),
    s.block.t0 = some t0 → t0 + slotBoundary s.cfg k ≤ s.now →
    s.now ≤ t0 + slotBoundary s.cfg k + s.cfg.edgeSlack →
    ∃ t ts, slotLoop b (List.range' k n) s = .ok t ∧ ts.length = n ∧
      Ran s t (drivesAt ts ((List.range' k n).map (slotLevel b))) ∧
      (∀ (j a : Nat), ts[j]? = some a → t0 + slotBoundary s.cfg (k + j) ≤ a ∧
        a ≤ t0 + slotBoundary s.cfg (k + j) + s.cfg.edgeSlack) ∧
      t0 + slotBoundary s.cfg (k + n) ≤ t.now ∧
      t.now ≤ t0 + slotBoundary s.cfg (k + n) + s.cfg.edgeSlack ∧
      t.block = { s.block with line := if n = 0 then s.block.line else slotLevel b (k + n - 1) } ∧
      t.hostWork = s.hostWork ∧ t.snapInputs = s.snapInputs := by
  induction n with
  | zero =>
    intro k s t0 _ hlo hhi
    exact ⟨s, [], rfl, rfl, by simpa [drivesAt] using Ran.refl s, by simp, by simpa using hlo,
      by simpa using hhi, by simp, rfl, rfl⟩
  | succ n ih =>
    intro k s t0 h0 hlo hhi
    let u := (s.drive (slotLevel b k)).waitInCharacter (t0 + slotBoundary s.cfg (k + 1))
    have hE := slotBoundary_mono s.cfg (Nat.le_succ k)
    have hu0 : u.block = { s.block with line := slotLevel b k } := by simp [u]
    have huc : u.cfg = s.cfg := by simp [u]
    have hulo : t0 + slotBoundary s.cfg (k + 1) ≤ u.now := waitInCharacter_ge _ _
    have huhi : u.now ≤ t0 + slotBoundary s.cfg (k + 1) + s.cfg.edgeSlack :=
      waitInCharacter_le _ (s.drive (slotLevel b k)) (by
        simp only [State.drive_now, State.drive_cfg, Nat.succ_eq_add_one] at hE ⊢; omega)
    have hran : Ran s u [.drive s.now (slotLevel b k)] :=
      (ran_drive (slotLevel b k) s).trans (ran_waitInCharacter _ _)
    obtain ⟨t, ts, ht, hlen, hr, hts, htlo, hthi, hblk, hhw, hsn⟩ :=
      ih (k + 1) u t0 (by simp [hu0, h0]) (by rw [huc]; exact hulo) (by rw [huc]; exact huhi)
    rw [huc] at hts htlo hthi
    have e : k + 1 + n = k + (n + 1) := by omega
    refine ⟨t, s.now :: ts, ?_, by simp [hlen], ?_, ?_, by rw [← e]; exact htlo, by rw [← e]; exact hthi,
      ?_, ?_, ?_⟩
    · simp only [List.range'_succ, slotLoop, State.drive_block, h0, readField_some, Op.ok_bind]
      exact ht
    · rw [List.range'_succ]
      exact hran.trans hr
    · intro j a hj
      cases j with
      | zero =>
        simp only [List.getElem?_cons_zero, Option.some.injEq] at hj
        subst hj
        exact ⟨by simpa using hlo, by simpa using hhi⟩
      | succ j =>
        have := hts j a (by simpa using hj)
        have e2 : k + 1 + j = k + (j + 1) := by omega
        rwa [e2] at this
    · rw [hblk, hu0]
      cases n with
      | zero => simp
      | succ n =>
        have e3 : k + 1 + (n + 1) - 1 = k + (n + 1 + 1) - 1 := by omega
        simp [e3]
    · rw [hhw]; simp [u]
    · rw [hsn]; simp [u]

/-- All that TX_BYTE does as a step (R181, R189(a), R242, R246). -/
theorem runTxByte_spec (b : Byte) (s : State) :
    ∃ t t0 ts, runTxByte b s = .ok t ∧ ts.length = 10 ∧ s.now ≤ t0 ∧
      Ran s t ([.mask t0 true] ++ drivesAt ts (charLevels b) ++ [.mask t.now s.block.irqMasked]) ∧
      (∀ (k a : Nat), ts[k]? = some a → t0 + slotBoundary s.cfg k ≤ a ∧
        a ≤ t0 + slotBoundary s.cfg k + s.cfg.edgeSlack) ∧
      t0 + slotBoundary s.cfg 10 ≤ t.now ∧ t.now ≤ t0 + slotBoundary s.cfg 10 + s.cfg.edgeSlack ∧
      t.block = { s.block with line := .low, irqSaved := some s.block.irqMasked, t0 := some t0 } ∧
      t.hostWork = s.hostWork ∧ t.snapInputs = s.snapInputs := by
  let r := s.readTime.enterCritical
  let u := (r.setT0 r.now).elapseUpTo r.cfg.edgeSlack
  have hr : Ran s r [.mask r.now true] := (ran_readTime s).trans (ran_enterCritical _)
  have hu : Ran s u [.mask r.now true] := by
    simpa using (hr.trans (ran_setT0 r.now r)).trans (ran_elapseUpTo _ _)
  have hrc : r.cfg = s.cfg := hr.cfg
  have huc : u.cfg = s.cfg := hu.cfg
  have hub : u.block =
      { s.block with irqSaved := some s.block.irqMasked, irqMasked := true, t0 := some r.now } := by
    simp [u, r]
  have hulo : r.now ≤ u.now := (ran_elapseUpTo r.cfg.edgeSlack (r.setT0 r.now)).now_le
  have huhi : u.now ≤ r.now + r.cfg.edgeSlack := elapseUpTo_now_le r.cfg.edgeSlack (r.setT0 r.now)
  obtain ⟨v, ts, hv, hlen, hvr, hts, hvlo, hvhi, hvb, hvw, hvn⟩ :=
    slotLoop_spec b 10 0 u r.now (by simp [hub]) (by simpa using hulo) (by simpa [huc, hrc] using huhi)
  have hvs : v.block.irqSaved = some s.block.irqMasked := by simp [hvb, hub]
  have hx := exitCritical_of_saved hvs
  rw [huc] at hts hvlo hvhi
  refine ⟨{ v with block.irqMasked := s.block.irqMasked,
                   log := v.log ++ [.mask v.now s.block.irqMasked] }, r.now, ts, ?_, hlen, hr.now_le, ?_,
    by simpa using hts, by simpa using hvlo, by simpa using hvhi, ?_, ?_, ?_⟩
  · have hv' : slotLoop b (List.range charBits) u = .ok v := by
      rw [List.range_eq_range']; exact hv
    have : runTxByte b s = (slotLoop b (List.range charBits) u >>= State.exitCritical) := rfl
    rw [this, hv', Op.ok_bind, hx]
  · have h1 : Ran v { v with block.irqMasked := s.block.irqMasked,
                             log := v.log ++ [.mask v.now s.block.irqMasked] }
        [.mask v.now s.block.irqMasked] :=
      ⟨rfl, by simp [timesWithin, Event.time], rfl, rfl, rfl⟩
    have h2 := (hu.trans hvr).trans h1
    rw [show charLevels b = (List.range' 0 10).map (slotLevel b) from by
      rw [charLevels, List.range_eq_range']; rfl]
    exact h2
  · simp [hvb, hub, slotLevel, slotBit, inv]
  · rw [hvw]; simp [u, r]
  · rw [hvn]; simp [u, r]

/-! ### The preamble (R180, R189(b)) -/

/-- The levels of a preamble: each is held for at least PREAMBLE_PHASE_TICKS. -/
theorem preambleLoop_spec (ls : List Level) : ∀ s : State,
    ∃ ts, ts.length = ls.length ∧ Ran s (preambleLoop ls s) (drivesAt ts ls) ∧
      (∀ (j a b : Nat), (ts ++ [(preambleLoop ls s).now])[j]? = some a →
        (ts ++ [(preambleLoop ls s).now])[j + 1]? = some b → a + s.cfg.preamblePhaseTicks ≤ b) ∧
      s.now + ls.length * s.cfg.preamblePhaseTicks ≤ (preambleLoop ls s).now ∧
      (preambleLoop ls s).block = { s.block with line := (ls.getLast?).getD s.block.line } ∧
      (preambleLoop ls s).hostWork = s.hostWork ∧ (preambleLoop ls s).snapInputs = s.snapInputs := by
  induction ls with
  | nil =>
    intro s
    exact ⟨[], rfl, by simpa [drivesAt, preambleLoop] using Ran.refl s, by simp, by simp [preambleLoop],
      by simp [preambleLoop], rfl, rfl⟩
  | cons l ls ih =>
    intro s
    let r := (s.driveUnmasked l).readTime
    let u := r.waitUntil (r.now + r.cfg.preamblePhaseTicks)
    have hr : Ran s r [.drive s.elapse.now l] := (ran_driveUnmasked l s).trans (ran_readTime _)
    have hu : Ran s u [.drive s.elapse.now l] := by simpa using hr.trans (ran_waitUntil _ r)
    have hge : r.now + s.cfg.preamblePhaseTicks ≤ u.now := by
      have := waitUntil_ge (r.now + r.cfg.preamblePhaseTicks) r
      rw [← hr.cfg]; exact this
    have hrt : s.elapse.now ≤ r.now := (ran_readTime (s.driveUnmasked l)).now_le
    have he : s.now ≤ s.elapse.now := (ran_elapse s).now_le
    have hub : u.block = { s.block with line := l } := by simp [u, r]
    obtain ⟨ts, hlen, hran, hgap, hnow, hblk, hhw, hsn⟩ := ih u
    rw [hu.cfg] at hgap hnow
    have hloop : preambleLoop (l :: ls) s = preambleLoop ls u := rfl
    rw [hloop]
    refine ⟨s.elapse.now :: ts, by simp [hlen], hu.trans hran, ?_, ?_, ?_, ?_, ?_⟩
    · intro j a b ha hb
      cases j with
      | zero =>
        simp only [List.cons_append, List.getElem?_cons_zero, Option.some.injEq] at ha
        subst ha
        have hb' : u.now ≤ b := by
          have hw := hran.times
          cases ts with
          | nil =>
            simp only [List.cons_append, List.nil_append, List.getElem?_cons_succ,
              List.getElem?_cons_zero, Option.some.injEq] at hb
            subst hb
            exact hran.now_le
          | cons t ts =>
            simp only [List.cons_append, List.getElem?_cons_succ, List.getElem?_cons_zero,
              Option.some.injEq] at hb
            subst hb
            cases ls with
            | nil => simp at hlen
            | cons l' ls =>
              simp only [drivesAt_cons, timesWithin, Event.time, Bool.and_eq_true] at hw
              exact of_decide_eq_true hw.1
        omega
      | succ j => exact hgap j a b (by simpa using ha) (by simpa using hb)
    · have : (ls.length + 1) * s.cfg.preamblePhaseTicks =
          ls.length * s.cfg.preamblePhaseTicks + s.cfg.preamblePhaseTicks := by ring
      simp only [List.length_cons, this]
      omega
    · rw [hblk, hub]
      cases ls with
      | nil => simp
      | cons l' ls => simp [List.getLast?_cons]
    · rw [hhw]; simp [u, r]
    · rw [hsn]; simp [u, r, State.driveUnmasked]

/-- All that TX_PREAMBLE does as a step (R180, R189(b)). -/
theorem runPreamble_spec (s : State) :
    ∃ ts, ts.length = (preambleShape s.cfg).length ∧
      Ran s (runPreamble s) (drivesAt ts (preambleShape s.cfg)) ∧
      (∀ (j a b : Nat), ts[j]? = some a → ts[j + 1]? = some b → a + s.cfg.preamblePhaseTicks ≤ b) ∧
      (∀ a ∈ ts.getLast?, a + s.cfg.preamblePhaseTicks + s.cfg.gapTicks ≤ (runPreamble s).now) ∧
      s.now + (preambleShape s.cfg).length * s.cfg.preamblePhaseTicks + s.cfg.gapTicks ≤
        (runPreamble s).now ∧
      (runPreamble s).block =
        { s.block with line := if s.cfg.preambleEnable then .low else s.block.line } ∧
      (runPreamble s).hostWork = s.hostWork ∧ (runPreamble s).snapInputs = s.snapInputs := by
  have key : ∀ u : State,
      Ran u ((u.readTime).waitUntil (u.readTime.now + u.readTime.cfg.gapTicks)) [] ∧
      u.now + u.cfg.gapTicks ≤ ((u.readTime).waitUntil (u.readTime.now + u.readTime.cfg.gapTicks)).now := by
    intro u
    refine ⟨(ran_readTime u).trans (ran_waitUntil _ _), ?_⟩
    have h1 := waitUntil_ge (u.readTime.now + u.readTime.cfg.gapTicks) u.readTime
    have h2 := (ran_readTime u).now_le
    rw [(ran_readTime u).cfg] at h1 ⊢
    omega
  cases hp : s.cfg.preambleEnable
  · have hc : preambleShape s.cfg = [] := by simp [preambleShape, hp]
    have hrun : runPreamble s = (s.readTime).waitUntil (s.readTime.now + s.readTime.cfg.gapTicks) := by
      simp [runPreamble, hp]
    rw [hc, hrun]
    exact ⟨[], rfl, (key s).1, by simp, by simp, by simpa using (key s).2, by simp, by simp, by simp⟩
  · have hc : preambleShape s.cfg = preambleLevels := by simp [preambleShape, hp, preambleLevels]
    let u := preambleLoop preambleLevels s
    have hrun : runPreamble s = (u.readTime).waitUntil (u.readTime.now + u.readTime.cfg.gapTicks) := by
      simp [runPreamble, hp, u]
    obtain ⟨ts, hlen, hran, hgap, hnow, hblk, hhw, hsn⟩ := preambleLoop_spec preambleLevels s
    obtain ⟨k1, k2⟩ := key u
    rw [hran.cfg] at k2
    have hun : (preambleLoop preambleLevels s).now = u.now := rfl
    rw [hun] at hnow
    rw [hc, hrun]
    refine ⟨ts, hlen, by simpa using hran.trans k1, ?_, ?_, ?_, ?_, ?_, ?_⟩
    · intro j a b ha hb
      have hj : j + 1 < ts.length := (List.getElem?_eq_some_iff.mp hb).1
      exact hgap j a b (by rw [List.getElem?_append_left (by omega)]; exact ha)
        (by rw [List.getElem?_append_left hj]; exact hb)
    · intro a ha
      have hne : ts ≠ [] := by rintro rfl; simp at ha
      have hpos := List.length_pos_of_ne_nil hne
      have := hgap (ts.length - 1) a u.now
        (by rw [List.getElem?_append_left (by omega)]; rw [List.getLast?_eq_getElem?] at ha; exact ha)
        (by rw [Nat.sub_add_cancel hpos, List.getElem?_append_right (le_refl _)]; simp [u])
      omega
    · omega
    · have hl : preambleLevels.getLast? = some .low := rfl
      simp only [u, State.waitUntil_block, State.readTime_block, hblk, hl, Option.getD_some, if_true]
    · simp [u, hhw]
    · simp [u, hsn]

/-! ### Transmissions (R182 to R189) -/

/-- What every part of a transmission leaves as it is: the interrupt mask at its end, the gate, and the
refusal mark but for what host activity does to it. It reads no snapshot. Its critical sections are
balanced, and each holds the mask for at most one character and EDGE_SLACK. -/
structure Sent (s t : State) (es : List Event) : Prop extends Ran s t es where
  irqMasked : t.block.irqMasked = s.block.irqMasked
  sentAny : t.block.sentAny = s.block.sentAny
  lastSend : t.block.lastSend = s.block.lastSend
  refused : t.block.refused = (s.block.refused || hostWasRefused es)
  quiet : s.hostWork = [] ∨ s.block.irqMasked = true → t.block.refused = s.block.refused
  quietAfter : s.hostWork = [] → t.hostWork = []
  snapInputs : t.snapInputs = s.snapInputs
  mask : ∀ rest, maskOk s.block.irqMasked none (es ++ rest) = maskOk s.block.irqMasked none rest
  held : heldWithin (slotBoundary s.cfg 10 + s.cfg.edgeSlack) (maskHistory es) = true

theorem Sent.trans {s t u : State} {es fs : List Event} (h : Sent s t es) (k : Sent t u fs) :
    Sent s u (es ++ fs) where
  toRan := h.toRan.trans k.toRan
  irqMasked := k.irqMasked.trans h.irqMasked
  sentAny := k.sentAny.trans h.sentAny
  lastSend := k.lastSend.trans h.lastSend
  refused := by simp [k.refused, h.refused, Bool.or_assoc]
  quiet q := (k.quiet (q.imp h.quietAfter (fun m => h.irqMasked.trans m))).trans (h.quiet q)
  quietAfter q := k.quietAfter (h.quietAfter q)
  mask rest := by
    have := k.mask rest
    rw [h.irqMasked] at this
    rw [List.append_assoc, h.mask, this]
  snapInputs := k.snapInputs.trans h.snapInputs
  held := by
    have := k.held
    rw [h.cfg] at this
    rw [maskHistory_append]
    exact heldWithin_append h.held this

theorem Sent.refl (s : State) : Sent s s [] :=
  ⟨Ran.refl s, rfl, rfl, rfl, by simp, fun _ => rfl, id, rfl, fun _ => rfl, rfl⟩

theorem sent_setTx (x : TxState) (s : State) : Sent s (s.setTx x) [.tx s.now x] :=
  ⟨ran_setTx x s, rfl, rfl, rfl, by simp [hostWasRefused], fun _ => rfl, id, rfl, fun _ => rfl, rfl⟩

theorem sent_driveUnmasked (l : Level) (s : State) :
    Sent s (s.driveUnmasked l) [.drive s.elapse.now l] :=
  ⟨ran_driveUnmasked l s, by simp, by simp, by simp, by simp, by simp, by simp [State.driveUnmasked],
    by simp [State.driveUnmasked], fun _ => rfl, rfl⟩

theorem sent_runPreamble (s : State) : ∃ ts, ts.length = (preambleShape s.cfg).length ∧
    Sent s (runPreamble s) (drivesAt ts (preambleShape s.cfg)) := by
  obtain ⟨ts, hlen, hran, _, _, _, hblk, hhw, hsn⟩ := runPreamble_spec s
  exact ⟨ts, hlen, hran, by simp [hblk], by simp [hblk], by simp [hblk],
    by simp [hblk, hostWasRefused_of_none (drivesAt_hostAnswers _ _)], by simp [hblk],
    by simp [hhw], hsn, drivesAt_maskOk _ _ _ _, by rw [drivesAt_maskHistory]; rfl⟩

theorem sent_of_hostRan {s t : State} {es : List Event} (h : HostRan s t es)
    (hm : s.block.irqMasked = true → es = [] ∧ t.block = s.block)
    (hq : s.hostWork = [] → t.block = s.block ∧ t.hostWork = []) : Sent s t es where
  toRan := h.toRan
  irqMasked := by rw [h.block]
  sentAny := by rw [h.block]
  lastSend := by rw [h.block]
  refused := h.refused
  quiet q := by
    rcases q with q | q
    · rw [(hq q).1]
    · rw [(hm q).2]
  quietAfter q := (hq q).2
  snapInputs := h.snapInputs
  held := by rw [h.events.maskHistory]; rfl
  mask rest := by
    cases hb : s.block.irqMasked
    · exact h.events.maskOk rest
    · rw [(hm hb).1]; rfl

/-- A window as a part of a transmission: only results of host calls are added. -/
theorem sent_hostWindow (s : State) : ∃ t es, hostWindow s = .ok t ∧ Sent s t es ∧ hostOnly es ∧
    t.block = { s.block with refused := t.block.refused } ∧
    t.hostWork = s.hostWork.drop (windowsRun s.block.irqMasked 1) ∧
    (hostAnswers es).length =
      ((s.hostWork.take (windowsRun s.block.irqMasked 1)).map List.length).sum ∧
    isWindow s.block.irqMasked s.hostWork es := by
  obtain ⟨t, es, ht, hr, hm, hq, hw, hlen, hwin⟩ := hostWindow_ran s
  refine ⟨t, es, ht, sent_of_hostRan hr (fun m => ⟨hm m, ?_⟩) (fun q => (hq q).2), hr.events, hr.block,
    hw, by rw [hr.events.hostAnswers, hlen], hwin⟩
  have : hostWindow s = .ok s.elapse := by simp [hostWindow, m]
  rw [this] at ht
  cases ht
  simp

theorem sent_runTxByte (b : Byte) (s : State) : ∃ t es, runTxByte b s = .ok t ∧ Sent s t es ∧
    levels es = charShape b ∧ txTrace es = [] ∧ t.block.line = .low ∧
    t.block.txState = s.block.txState ∧ s.now + slotBoundary s.cfg 10 ≤ t.now ∧
    t.hostWork = s.hostWork ∧ hostAnswers es = [] := by
  obtain ⟨t, t0, ts, ht, hlen, ht0, hran, _, hlo, hhi, hblk, hhw, hsn⟩ := runTxByte_spec b s
  have ha : hostAnswers ([.mask t0 true] ++ drivesAt ts (charLevels b) ++
      [.mask t.now s.block.irqMasked]) = [] := by
    rw [hostAnswers_append, hostAnswers_append, drivesAt_hostAnswers]
    rfl
  refine ⟨t, _, ht, ⟨hran, by simp [hblk], by simp [hblk], by simp [hblk],
    by rw [hostWasRefused_of_none ha]; simp [hblk], by simp [hblk],
    by simp [hhw], hsn, ?_, ?_⟩, ?_, ?_, by simp [hblk], by simp [hblk], by omega, hhw, ha⟩
  · intro rest
    have hd := drivesAt_maskOk s.block.irqMasked (some s.block.irqMasked) ts (charLevels b)
      (.mask t.now s.block.irqMasked :: rest)
    simp only [List.append_assoc, List.cons_append, List.nil_append, maskOk, Bool.true_and]
    rw [hd]
    simp [maskOk]
  · rw [maskHistory_append, maskHistory_append, drivesAt_maskHistory]
    simp only [maskHistory, Event.mask?, List.filterMap_cons, List.filterMap_nil, List.append_nil,
      List.cons_append, List.nil_append, heldWithin, Bool.and_true, decide_eq_true_eq]
    omega
  · rw [levels_append, levels_append, drivesAt_levels (by simp [hlen]),
      charLevels_eq_charShape]
    exact List.append_nil _
  · rw [txTrace_append, txTrace_append, drivesAt_txTrace]
    rfl

/-- The characters of a transmission, from index `i` on (R182, R184, R188). -/
theorem sendChars_spec (bs : List Byte) : ∀ (i : Nat) (s : State),
    ∃ t es, sendChars i bs s = .ok t ∧ Sent s t es ∧ levels es = bs.flatMap charShape ∧
      txTrace es = (List.range' i bs.length).map TxState.byte ∧
      t.block.line = (if bs = [] then s.block.line else .low) ∧
      s.now + bs.length * slotBoundary s.cfg 10 ≤ t.now ∧
      t.hostWork = s.hostWork.drop (windowsRun s.block.irqMasked bs.length) ∧
      (hostAnswers es).length =
        ((s.hostWork.take (windowsRun s.block.irqMasked bs.length)).map List.length).sum := by
  induction bs with
  | nil =>
    intro i s
    exact ⟨s, [], rfl, Sent.refl s, rfl, rfl, by simp, by simp, by simp, by simp [hostAnswers]⟩
  | cons b bs ih =>
    intro i s
    obtain ⟨u, es1, hu, h1, hl1, hx1, hline1, _, hnow1, hw1, ha1⟩ := sent_runTxByte b (s.setTx (.byte i))
    obtain ⟨v, es2, hv, h2, ho, hvb, hw2, ha2, -⟩ := sent_hostWindow u
    obtain ⟨t, es3, ht, h3, hl3, hx3, hline3, hnow3, hw3, ha3⟩ := ih (i + 1) v
    refine ⟨t, _, ?_, (((sent_setTx (.byte i) s).trans h1).trans h2).trans h3, ?_, ?_, ?_, ?_, ?_, ?_⟩
    · simp only [sendChars, hu, hv, ht, Op.ok_bind]
    · simp [hl1, hl3, ho.levels]
    · simp [hx1, hx3, ho.txTrace, List.range'_succ]
    · rw [hline3, hvb, hline1]; simp
    · have c : v.cfg = s.cfg := (((sent_setTx (.byte i) s).trans h1).trans h2).cfg
      have n2 := h2.now_le
      rw [c] at hnow3
      simp only [State.setTx_now, State.setTx_cfg] at hnow1
      have : (bs.length + 1) * slotBoundary s.cfg 10 =
          bs.length * slotBoundary s.cfg 10 + slotBoundary s.cfg 10 := by ring
      simp only [List.length_cons, this]
      omega
    · have m1 : u.block.irqMasked = s.block.irqMasked := h1.irqMasked
      have m2 : v.block.irqMasked = s.block.irqMasked := h2.irqMasked.trans m1
      rw [hw3, hw2, hw1, m1, m2, List.drop_drop, windowsRun_add, List.length_cons, Nat.add_comm]
      rfl
    · have m1 : u.block.irqMasked = s.block.irqMasked := h1.irqMasked
      have m2 : v.block.irqMasked = s.block.irqMasked := h2.irqMasked.trans m1
      simp only [hostAnswers_append, hostAnswers_tx, ha1, List.nil_append, List.length_append, ha2, ha3]
      rw [hw2, hw1, m1, m2, List.length_cons, Nat.add_comm bs.length, ← windowsRun_add, List.take_add,
        List.map_append, List.sum_append]
      rfl

/-- The transmitter states of a whole transmission (R184). -/
def transmissionTx (n : Nat) : List TxState :=
  .preamble :: (List.range n).map TxState.byte ++ [.idle]

/-- All that SEND_BUFFER does when it is not refused (R182). -/
theorem runSendBuffer_spec {buf : List Byte} {n : Nat} {s : State} (hi : s.block.txState = .idle)
    (hn : n ≤ buf.length) :
    ∃ t es, runSendBuffer buf n s = .ok t ∧ Sent s t es ∧
      levels es = transmissionShape s.cfg (buf.take n) ∧ txTrace es = transmissionTx n ∧
      t.block.line = .low ∧ t.block.txState = .idle ∧
      s.now + (preambleShape s.cfg).length * s.cfg.preamblePhaseTicks + s.cfg.gapTicks +
        n * slotBoundary s.cfg 10 ≤ t.now ∧
      t.hostWork = s.hostWork.drop (windowsRun s.block.irqMasked (n + 1)) ∧
      (hostAnswers es).length =
        ((s.hostWork.take (windowsRun s.block.irqMasked (n + 1))).map List.length).sum := by
  have hlen : (buf.take n).length = n := by simp [hn]
  have h1 := sent_setTx .preamble s
  obtain ⟨ts, htl, h2⟩ := sent_runPreamble (s.setTx .preamble)
  obtain ⟨_, _, _, _, _, hnow2, _, hw2, _⟩ := runPreamble_spec (s.setTx .preamble)
  obtain ⟨v, es3, hv, h3, ho, hvb, hw3, ha3, -⟩ := sent_hostWindow (runPreamble (s.setTx .preamble))
  obtain ⟨w, es4, hw, h4, hl4, hx4, _, hnow4, hw4, ha4⟩ := sendChars_spec (buf.take n) 0 v
  have h5 := sent_driveUnmasked .low w
  have h6 := sent_setTx .idle (w.driveUnmasked .low)
  have h := ((((h1.trans h2).trans h3).trans h4).trans h5).trans h6
  refine ⟨(w.driveUnmasked .low).setTx .idle, _, ?_, h, ?_, ?_, by simp, by simp, ?_, ?_, ?_⟩
  · simp only [runSendBuffer, requireIdle_of_idle hi, Op.ok_bind, Nat.not_lt.mpr hn, if_false, hv, hw,
      Op.pure_eq]
  · simp [hl4, ho.levels, drivesAt_levels (by simpa using htl), transmissionShape]
  · simp [hx4, ho.txTrace, drivesAt_txTrace, hn, transmissionTx, List.range_eq_range']
  · have c : v.cfg = s.cfg := ((h1.trans h2).trans h3).cfg
    have n3 := h3.now_le
    have n5 := (h5.trans h6).now_le
    rw [c, hlen] at hnow4
    simp only [State.setTx_now, State.setTx_cfg] at hnow2
    omega
  · have m2 : (runPreamble (s.setTx .preamble)).block.irqMasked = s.block.irqMasked := h2.irqMasked
    have m3 : v.block.irqMasked = s.block.irqMasked := h3.irqMasked.trans m2
    rw [State.setTx_hostWork, driveUnmasked_hostWork, hw4, hw3, hw2, m2, m3, hlen, List.drop_drop,
      windowsRun_add, Nat.add_comm]
    rfl
  · have m2 : (runPreamble (s.setTx .preamble)).block.irqMasked = s.block.irqMasked := h2.irqMasked
    have m3 : v.block.irqMasked = s.block.irqMasked := h3.irqMasked.trans m2
    simp only [hostAnswers_append, hostAnswers_tx, hostAnswers_drive, drivesAt_hostAnswers,
      List.nil_append, List.append_nil, List.length_append, ha3, ha4]
    rw [hw3, hw2, m2, m3, hlen, Nat.add_comm n, ← windowsRun_add, List.take_add, List.map_append,
      List.sum_append]
    rfl

/-- All that BUILD_AND_SEND does when it is not refused: it sends the built frame (R183). -/
theorem runBuildAndSend_spec {snap : List Half} {s : State} (hi : s.block.txState = .idle)
    (hn : snap.length = numChannels) :
    ∃ t es, runBuildAndSend snap s = .ok t ∧ Sent s t es ∧
      levels es = transmissionShape s.cfg (frameOf s.cfg snap) ∧ txTrace es = transmissionTx 26 ∧
      t.block.line = .low ∧ t.block.txState = .idle ∧
      s.now + (preambleShape s.cfg).length * s.cfg.preamblePhaseTicks + s.cfg.gapTicks +
        26 * slotBoundary s.cfg 10 ≤ t.now ∧
      t.hostWork = s.hostWork.drop (windowsRun s.block.irqMasked 27) ∧
      (hostAnswers es).length =
        ((s.hostWork.take (windowsRun s.block.irqMasked 27)).map List.length).sum := by
  let u := (((s.setSnap snap).setCursor 176).setCrcAcc
    (crcOf (frameType :: packOf snap))).setFrame (frameOf s.cfg snap)
  have h0 : Sent s u [] :=
    ⟨⟨by simp [u], by simp [u, timesWithin], rfl, rfl, rfl⟩, rfl, rfl, rfl, by simp [u], fun _ => rfl,
      id, rfl, fun _ => rfl, rfl⟩
  obtain ⟨t, es, ht, hs, hl, hx, h1, h2, h3, hw⟩ :=
    runSendBuffer_spec (buf := frameOf s.cfg snap) (n := 26) (s := u) hi (by simp)
  refine ⟨t, es, ?_, by simpa using h0.trans hs, ?_, hx, h1, h2, h3, hw⟩
  · simp only [runBuildAndSend, requireIdle_of_idle hi, runBuildFrame_of_length hn, Op.ok_bind]
    exact ht
  · rw [hl, List.take_of_length_le (by simp)]
    rfl

/-- The 16 values that a snapshot answers (R66). -/
theorem snapDraw_length (s : State) : s.snapDraw.length = numChannels := by
  unfold State.snapDraw
  split <;> simp [numChannels]

/-- All that TICK does with its gate open: one frame of the snapshot, and the stamp (R220, R222). -/
theorem runTickSend_spec {s : State} (hi : s.block.txState = .idle) :
    ∃ t es, runTickSend s = .ok t ∧ Ran s t es ∧
      levels es = transmissionShape s.cfg (frameOf s.cfg s.snapDraw) ∧ txTrace es = transmissionTx 26 ∧
      t.block.line = .low ∧ t.block.txState = .idle ∧ t.block.irqMasked = s.block.irqMasked ∧
      t.block.sentAny = true ∧ t.block.lastSend = some (counterAt s.cfg t.now) ∧
      t.block.refused = (s.block.refused || hostWasRefused es) ∧
      (s.hostWork = [] ∨ s.block.irqMasked = true → t.block.refused = s.block.refused) ∧
      (∀ rest, maskOk s.block.irqMasked none (es ++ rest) = maskOk s.block.irqMasked none rest) ∧
      heldWithin (slotBoundary s.cfg 10 + s.cfg.edgeSlack) (maskHistory es) = true ∧
      t.snapInputs = s.snapInputs.tail ∧
      s.now + (preambleShape s.cfg).length * s.cfg.preamblePhaseTicks + s.cfg.gapTicks +
        26 * slotBoundary s.cfg 10 ≤ t.now ∧
      t.hostWork = s.hostWork.drop (windowsRun s.block.irqMasked 27) ∧
      (hostAnswers es).length =
        ((s.hostWork.take (windowsRun s.block.irqMasked 27)).map List.length).sum := by
  let u := s.useSnapDraw.setSnap s.snapDraw
  have h0 : Ran s u [] :=
    ⟨by simp [u], by simp [u, timesWithin], by simp [u], by simp [u], by simp [u]⟩
  have hub : u.block = { s.block with snap := some s.snapDraw } := by simp [u]
  have huw : u.hostWork = s.hostWork := by simp [u]
  have hun : u.snapInputs = s.snapInputs.tail := by simp [u]
  obtain ⟨v, es, hv, hs, hl, hx, h1, h2, h3, hw, ha⟩ :=
    runBuildAndSend_spec (snap := s.snapDraw) (s := u) (by simpa [u] using hi) (snapDraw_length s)
  have hsv : Ran s v es := by simpa using h0.trans hs.toRan
  have hcfg : u.cfg = s.cfg := h0.cfg
  have hunow : u.now = s.now := by simp [u]
  rw [hcfg] at hl h3
  rw [hunow] at h3
  have hr : Ran v (v.readTime.stamp (counterAt v.readTime.cfg v.readTime.now)) [] :=
    ⟨by simp, by simp [timesWithin, State.readTime_now], by simp, by simp, by simp⟩
  have n := hr.now_le
  refine ⟨v.readTime.stamp (counterAt v.readTime.cfg v.readTime.now), es, ?_,
    by simpa using hsv.trans hr, hl, hx, by simp [h1], by simp [h2], by simp [hs.irqMasked, hub],
    by simp, by simp [hsv.cfg], by simpa [hub] using hs.refused, by simpa [hub, huw] using hs.quiet,
    by simpa [hub] using hs.mask, by simpa [hcfg] using hs.held, by simp [hs.snapInputs, hun], by omega,
    by simp [hw, huw, hub], by simpa [huw, hub] using ha⟩
  have hsnap : u.block.snap = some s.snapDraw := by simp [u]
  have e : runTickSend s = (do
      let snap ← readField .snap u.block.snap
      let s ← runBuildAndSend snap u
      return s.readTime.stamp (counterAt s.readTime.cfg s.readTime.now)) := rfl
  rw [e, hsnap, readField_some, Op.ok_bind, hv, Op.ok_bind, Op.pure_eq]

end Sys2Proof.Machine
end

