-- ==== Sys2Proof/Laws/Exec.lean ====
section
/-! SUPPORT. What each operation, and a step, can do, said once: which of them complete, which are refused, and what a completed one leaves. -/

namespace Sys2Proof.Machine

/-! ### The operations one by one -/

theorem exec_buildFrame {snap : List Half} (s : State) (h : snap.length = numChannels) :
    exec (.buildFrame snap) s = .next (completedFrom s (.bytes (frameOf s.cfg snap))) := by
  simp only [exec, execBuildFrame, opBuildFrame_of_length h, conclude_ok]
  rfl

/-- SEND_BUFFER that is not refused (R182). -/
theorem exec_sendBuffer {buf : List Byte} {n : Nat} {s : State} (hi : s.block.txState = .idle)
    (hn : n ≤ buf.length) :
    ∃ t es, exec (.sendBuffer buf n) s = .next (t.complete .unit) ∧ Sent s t es ∧
      levels es = transmissionShape s.cfg (buf.take n) ∧ txTrace es = transmissionTx n ∧
      t.block.line = .low ∧ t.block.txState = .idle ∧ s.now + nominalTicks s.cfg n ≤ t.now ∧
      t.hostWork = s.hostWork.drop (windowsRun s.block.irqMasked (n + 1)) ∧
      (hostAnswers es).length =
        ((s.hostWork.take (windowsRun s.block.irqMasked (n + 1))).map List.length).sum := by
  obtain ⟨t, es, h, hs, hl, hx, h1, h2, h3, hw⟩ := runSendBuffer_spec hi hn
  refine ⟨t, es, by simp [exec, execSendBuffer, opSendBuffer, h], hs, hl, hx, h1, h2, ?_, hw⟩
  simp only [nominalTicks, slotBoundary] at *
  omega

/-- BUILD_AND_SEND that is not refused (R183). -/
theorem exec_buildAndSend {snap : List Half} {s : State} (hi : s.block.txState = .idle)
    (hn : snap.length = numChannels) :
    ∃ t es, exec (.buildAndSend snap) s = .next (t.complete .unit) ∧ Sent s t es ∧
      levels es = transmissionShape s.cfg (frameOf s.cfg snap) ∧ txTrace es = transmissionTx 26 ∧
      t.block.line = .low ∧ t.block.txState = .idle ∧ s.now + nominalTicks s.cfg 26 ≤ t.now ∧
      t.hostWork = s.hostWork.drop (windowsRun s.block.irqMasked 27) ∧
      (hostAnswers es).length =
        ((s.hostWork.take (windowsRun s.block.irqMasked 27)).map List.length).sum := by
  obtain ⟨t, es, h, hs, hl, hx, h1, h2, h3, hw⟩ := runBuildAndSend_spec hi hn
  refine ⟨t, es, by simp [exec, execBuildAndSend, opBuildAndSend, h], hs, hl, hx, h1, h2, ?_, hw⟩
  simp only [nominalTicks, slotBoundary] at *
  omega

/-- RESET that is not refused (R260). -/
theorem exec_reset {s : State} (hi : s.block.txState = .idle) :
    ∃ t, exec .reset s = .next (t.complete .unit) ∧ Ran s t [.drive s.elapse.now .low] ∧
      t.block = { s.block with line := .low, txState := .idle, sentAny := false, lastSend := none } ∧
      t.now = s.elapse.now ∧ t.hostWork = s.hostWork ∧ t.snapInputs = s.snapInputs := by
  have hr := ran_driveUnmasked .low s
  refine ⟨{ s.driveUnmasked .low with
      block.txState := .idle, block.sentAny := false, block.lastSend := none }, ?_,
    ⟨hr.log, hr.times, hr.cfg, hr.ret, hr.calls⟩, by simp, rfl, by simp, by simp [State.driveUnmasked]⟩
  simp [exec, execReset, opReset, requireIdle_of_idle hi]

/-- TICK with its gate open (R220, R222). -/
theorem exec_tick_open {s : State} (hi : s.block.txState = .idle)
    (hg : s.readTime.gateOpen (counterAt s.cfg s.readTime.now) = .ok true) :
    ∃ t es, exec .tick s = .next (t.complete .unit) ∧ Ran s t es ∧
      timesWithin s.readTime.now t.now es = true ∧
      levels es = transmissionShape s.cfg (frameOf s.cfg s.readTime.snapDraw) ∧
      txTrace es = transmissionTx 26 ∧ t.block.line = .low ∧ t.block.txState = .idle ∧
      t.block.irqMasked = s.block.irqMasked ∧ t.block.sentAny = true ∧
      t.block.lastSend = some (counterAt s.cfg t.now) ∧
      t.block.refused = (s.block.refused || hostWasRefused es) ∧
      (s.hostWork = [] ∨ s.block.irqMasked = true → t.block.refused = s.block.refused) ∧
      (∀ rest, maskOk s.block.irqMasked none (es ++ rest) = maskOk s.block.irqMasked none rest) ∧
      heldWithin (slotBoundary s.cfg 10 + s.cfg.edgeSlack) (maskHistory es) = true ∧
      t.snapInputs = s.snapInputs.tail ∧
      s.readTime.now + nominalTicks s.cfg 26 ≤ t.now ∧
      t.hostWork = s.hostWork.drop (windowsRun s.block.irqMasked 27) ∧
      (hostAnswers es).length =
        ((s.hostWork.take (windowsRun s.block.irqMasked 27)).map List.length).sum := by
  have hc : s.readTime.cfg = s.cfg := (ran_readTime s).cfg
  obtain ⟨t, es, h, hr, hl, hx, h1, h2, hm, hsa, hls, href, hq, hmask, hheld, hsn, hnow, hw⟩ :=
    runTickSend_spec (s := s.readTime) (by simpa using hi)
  rw [hc] at hl hls hheld hnow
  refine ⟨t, es, by simp [exec, execTick, opTick, requireIdle_of_idle hi, hg, h],
    by simpa using (ran_readTime s).trans hr, hr.times, hl, hx, h1, h2, by simpa using hm, hsa, hls,
    by simpa using href, by simpa using hq, by simpa using hmask, hheld, by simpa using hsn, ?_, by simpa using hw⟩
  simp only [nominalTicks, slotBoundary] at *
  omega

/-- TICK with its gate closed: the time is read, and nothing else happens (R220). -/
theorem exec_tick_closed {s : State} (hi : s.block.txState = .idle)
    (hg : s.readTime.gateOpen (counterAt s.cfg s.readTime.now) = .ok false) :
    exec .tick s = .next (s.readTime.complete .unit) := by
  simp [exec, execTick, opTick, requireIdle_of_idle hi, hg]

/-- The re-entrancy check of the six operations that transmit, gate or reset (R241, R256). -/
theorem exec_reentrant {i : Instr} {s : State} (ht : transmits i = true)
    (hx : s.block.txState ≠ .idle) : exec i s = .next (s.markRefused .reentrantTransmit) := by
  have h := requireIdle_of_not_idle hx
  cases i <;> simp only [transmits, Bool.false_eq_true] at ht <;>
    simp [exec, execTxPreamble, opTxPreamble, execTxByte, opTxByte, execSendBuffer, opSendBuffer,
      runSendBuffer, execBuildAndSend, opBuildAndSend, runBuildAndSend, execTick, opTick, execReset,
      opReset, h]

/-! ### All operations at once -/

/-- How a transmission's trace of `tx_state` comes about: by a SEND_BUFFER of `n` bytes, on its own or
inside BUILD_AND_SEND or TICK (R184). -/
def sendsBytes (i : Instr) (n : Nat) : Prop :=
  (∃ buf, i = .sendBuffer buf n) ∨ n = 26 ∧ ((∃ snap, i = .buildAndSend snap) ∨ i = .tick)

/-- A completed operation: the events it added, and the block it left before the transient fields were
cleared. -/
structure Completed (i : Instr) (s t : State) (es : List Event) : Prop extends Ran s t es where
  irqMasked : t.block.irqMasked = s.block.irqMasked
  mask : maskOk s.block.irqMasked none es = true
  held : heldWithin (slotBoundary s.cfg 10 + s.cfg.edgeSlack) (maskHistory es) = true
  txState : t.block.txState = s.block.txState
  trace : txTrace es = [] ∨ ∃ n, s.block.txState = .idle ∧ txTrace es = transmissionTx n ∧ sendsBytes i n
  line : t.block.line = .low ∨ t.block.line = s.block.line
  refused : t.block.refused = (s.block.refused || hostWasRefused es)
  gate : i ≠ .tick → i ≠ .reset →
    t.block.sentAny = s.block.sentAny ∧ t.block.lastSend = s.block.lastSend
  gateWritten : s.block.gateWritten → t.block.gateWritten

theorem completed_of_sent {i : Instr} {s t : State} {es : List Event} (h : Sent s t es)
    (hx : t.block.txState = s.block.txState)
    (htr : txTrace es = [] ∨ ∃ n, s.block.txState = .idle ∧ txTrace es = transmissionTx n ∧ sendsBytes i n)
    (hl : t.block.line = .low ∨ t.block.line = s.block.line) : Completed i s t es :=
  ⟨h.toRan, h.irqMasked, by simpa [maskOk] using h.mask [], h.held, hx, htr, hl, h.refused,
    fun _ _ => ⟨h.sentAny, h.lastSend⟩, by simp [Block.gateWritten, h.sentAny, h.lastSend]⟩

theorem completed_of_pure {i : Instr} {s : State} {b : Block} (hb : b.transientsFrom s.block = s.block) :
    Completed i s { s with block := b } [] := by
  have h : b = (b.transientsFrom s.block).transientsFrom b := rfl
  rw [hb] at h
  rw [h]
  exact ⟨⟨by simp, by simp [timesWithin], rfl, rfl, rfl⟩, rfl, rfl, rfl, rfl, .inl rfl, .inr rfl, by simp,
    fun _ _ => ⟨rfl, rfl⟩, id⟩

/-- What a pure operation does: it is refused for its operands, or completes (R241). -/
theorem exec_of_pureRun {i : Instr} {s : State} {o : Op (State × Return)} (h : PureRun s o)
    (he : exec i s = conclude s o)
    (hr : ∀ r, o = .error (.refuse r) → operandRefusal i = some r)
    (hk : ∀ t r, o = .ok (t, r) → operandRefusal i = none) :
    (∃ r, operandRefusal i = some r ∧ exec i s = .next (s.markRefused r)) ∨
    (operandRefusal i = none ∧ ∃ t r es, exec i s = .next (State.complete r t) ∧
      (∀ q, r ≠ .refused q) ∧ Completed i s t es) := by
  obtain ⟨b, r, rfl, hb, hq⟩ | ⟨r, rfl⟩ := h
  · exact .inr ⟨hk _ _ rfl, _, r, [], he, hq, completed_of_pure hb⟩
  · exact .inl ⟨r, hr r rfl, he⟩

/-- All that an operation can do, from a state in which `last_send` is written where it may be read:
it is refused for the reason of R241, or it completes. -/
theorem exec_cases (i : Instr) (s : State)
    (hg : i = .tick → s.block.sentAny = true → s.block.lastSend.isSome = true) :
    (∃ r, refusalOf i s.block.txState = some r ∧ exec i s = .next (s.markRefused r)) ∨
    (refusalOf i s.block.txState = none ∧ ∃ t r es, exec i s = .next (State.complete r t) ∧
      (∀ q, r ≠ .refused q) ∧ Completed i s t es) := by
  by_cases hx : transmits i = true ∧ s.block.txState ≠ .idle
  · exact .inl ⟨_, by simp [refusalOf, hx], exec_reentrant hx.1 hx.2⟩
  have hi : transmits i = true → s.block.txState = .idle := fun h => by
    by_contra h'
    exact hx ⟨h, h'⟩
  rw [show refusalOf i s.block.txState = operandRefusal i from if_neg hx]
  cases i with
  | crc8Byte acc b =>
    exact exec_of_pureRun (pureRun_crc8Byte acc b s) rfl (by simp [opCrc8Byte])
      (fun t r h => by cases h; rfl)
  | crc8 buf n =>
    refine exec_of_pureRun (pureRun_crc8 buf n s) rfl ?_ ?_ <;>
      rcases Nat.lt_or_ge buf.length n with h | h
    · simp [opCrc8, runCrc8_of_lt h, operandRefusal, h]
    · simp [opCrc8_of_le h]
    · simp [opCrc8, runCrc8_of_lt h]
    · rw [opCrc8_of_le h]
      exact fun t r e => by cases e; simp [operandRefusal, h]
  | pack v =>
    refine exec_of_pureRun (pureRun_pack v s) rfl ?_ ?_ <;> by_cases h : v.length = numChannels
    · simp [opPack_of_length h]
    · have h' : v.length ≠ 16 := h
      simp [opPack, runPack_of_ne h, operandRefusal, h']
    · rw [opPack_of_length h]
      have h' : v.length = 16 := h
      exact fun t r e => by cases e; simp [operandRefusal, h']
    · simp [opPack, runPack_of_ne h]
  | unpack p =>
    refine exec_of_pureRun (pureRun_unpack p s) rfl ?_ ?_ <;> by_cases h : p.length = payloadSize
    · simp [opUnpack_of_length h]
    · have h' : p.length ≠ 22 := h
      simp [opUnpack, h, operandRefusal, h']
    · rw [opUnpack_of_length h]
      have h' : p.length = 22 := h
      exact fun t r e => by cases e; simp [operandRefusal, h']
    · simp [opUnpack, h]
  | buildFrame v =>
    refine exec_of_pureRun (pureRun_buildFrame v s) rfl ?_ ?_ <;> by_cases h : v.length = numChannels
    · simp [opBuildFrame_of_length h]
    · have h' : v.length ≠ 16 := h
      simp [opBuildFrame, runBuildFrame_of_ne h, operandRefusal, h']
    · rw [opBuildFrame_of_length h]
      have h' : v.length = 16 := h
      exact fun t r e => by cases e; simp [operandRefusal, h']
    · simp [opBuildFrame, runBuildFrame_of_ne h]
  | txPreamble =>
    obtain ⟨ts, -, hs⟩ := sent_runPreamble s
    obtain ⟨_, _, _, _, _, _, hb, _⟩ := runPreamble_spec s
    refine .inr ⟨rfl, runPreamble s, .unit, _,
      by simp [exec, execTxPreamble, opTxPreamble, requireIdle_of_idle (hi rfl)], by simp,
      completed_of_sent hs (by simp [hb]) (.inl (drivesAt_txTrace _ _)) ?_⟩
    rw [hb]
    cases s.cfg.preambleEnable <;> simp
  | txByte b =>
    obtain ⟨t, es, h, hs, -, hx, hlow, htx, -⟩ := sent_runTxByte b s
    exact .inr ⟨rfl, t, .unit, es, by simp [exec, execTxByte, opTxByte, requireIdle_of_idle (hi rfl), h],
      by simp, completed_of_sent hs htx (.inl hx) (.inl hlow)⟩
  | sendBuffer buf n =>
    rcases Nat.lt_or_ge buf.length n with hn | hn
    · exact .inl ⟨.sendLengthBeyondBuffer, by simp [operandRefusal, hn],
        by simp [exec, execSendBuffer, opSendBuffer, runSendBuffer, requireIdle_of_idle (hi rfl), hn]⟩
    · obtain ⟨t, es, h, hs, -, hx, h1, h2, -⟩ := exec_sendBuffer (hi rfl) hn
      exact .inr ⟨by simp [operandRefusal, hn], t, .unit, es, h, by simp,
        completed_of_sent hs (h2.trans (hi rfl).symm) (.inr ⟨n, hi rfl, hx, .inl ⟨buf, rfl⟩⟩) (.inl h1)⟩
  | buildAndSend snap =>
    by_cases hn : snap.length = numChannels
    · obtain ⟨t, es, h, hs, -, hx, h1, h2, -⟩ := exec_buildAndSend (hi rfl) hn
      have hn' : snap.length = 16 := hn
      exact .inr ⟨by simp [operandRefusal, hn'], t, .unit, es, h, by simp,
        completed_of_sent hs (h2.trans (hi rfl).symm)
          (.inr ⟨26, hi rfl, hx, .inr ⟨rfl, .inl ⟨snap, rfl⟩⟩⟩) (.inl h1)⟩
    · have hn' : snap.length ≠ 16 := hn
      exact .inl ⟨.wrongChannelCount, by simp [operandRefusal, hn'],
        by simp [exec, execBuildAndSend, opBuildAndSend, runBuildAndSend, requireIdle_of_idle (hi rfl),
          runBuildFrame_of_ne hn]⟩
  | tick =>
    have hc : s.readTime.cfg = s.cfg := (ran_readTime s).cfg
    refine .inr ⟨rfl, ?_⟩
    rcases gateOpen_cases s.readTime (counterAt s.cfg s.readTime.now) with ⟨b, hb⟩ | ⟨h1, h2, -⟩
    · cases b
      · have hr := ran_readTime s
        exact ⟨s.readTime, .unit, [], exec_tick_closed (hi rfl) hb, by simp, hr, by simp, rfl, rfl, by simp,
          .inl rfl, .inr (by simp), by simp, by simp, by simp⟩
      · obtain ⟨t, es, h, hr, -, -, hx, hl, htx, hm, hsa, hls, href, -, hmask, hheld, -⟩ :=
          exec_tick_open (hi rfl) hb
        exact ⟨t, .unit, es, h, by simp, hr, hm, by simpa [maskOk] using hmask [],
          hheld, htx.trans (hi rfl).symm, .inr ⟨26, hi rfl, hx, .inr ⟨rfl, .inr rfl⟩⟩, .inl hl, href, by simp,
          by simp [Block.gateWritten, hsa, hls]⟩
    · have := hg rfl (by simpa using h1)
      rw [State.readTime_block] at h2
      simp [h2] at this
  | reset =>
    obtain ⟨t, h, hr, hb, -⟩ := exec_reset (hi rfl)
    exact .inr ⟨rfl, t, .unit, _, h, by simp, hr, by simp [hb], rfl, rfl, by simp [hb, hi rfl], .inl rfl,
      .inl (by simp [hb]), by simp [hb], by simp, by simp [hb, Block.gateWritten]⟩

/-- Where an operation answers a next state, it was refused, or it completed (R21). -/
theorem exec_next {i : Instr} {s t : State} (h : exec i s = .next t) :
    (∃ r, refusalOf i s.block.txState = some r ∧ t = s.markRefused r) ∨
    (∃ u r es, t = State.complete r u ∧ (∀ q, r ≠ .refused q) ∧ Completed i s u es) := by
  by_cases hg : i = .tick → s.block.sentAny = true → s.block.lastSend.isSome = true
  · rcases exec_cases i s hg with ⟨r, hr, he⟩ | ⟨-, u, r, es, he, hq, hu⟩
    · rw [h] at he
      cases he
      exact .inl ⟨r, hr, rfl⟩
    · rw [h] at he
      cases he
      exact .inr ⟨u, r, es, rfl, hq, hu⟩
  · simp only [Classical.not_imp] at hg
    obtain ⟨rfl, hs, hl⟩ := hg
    by_cases hx : s.block.txState = .idle
    · have hn : s.block.lastSend = none := by simpa using hl
      have hf : s.readTime.gateOpen (counterAt s.readTime.cfg s.readTime.now) =
          .error (.fault (.unwrittenRead .lastSend)) := by simp [State.gateOpen, hs, hn]
      simp only [exec, execTick, opTick, requireIdle_of_idle hx, Op.ok_bind, hf, Op.error_bind,
        conclude_fault] at h
      cases h
    · rw [exec_reentrant rfl hx] at h
      cases h
      exact .inl ⟨_, by simp [refusalOf, hx, transmits], rfl⟩

/-! ### A step -/

@[simp] theorem runSteps_zero (s : State) : runSteps 0 s = some s := rfl

/-- A first step and the steps after it. -/
theorem runSteps_succ {n : Nat} {s t : State} (h : step s = .next t) :
    runSteps (n + 1) s = runSteps n t := by simp [runSteps, h]

/-- The state in which the operation of arrival `a` starts (R36, R101). -/
def State.afterFetch (s : State) (a : Arrival) (rest : List Arrival) : State :=
  { s with calls := rest, now := max s.now a.notBefore,
           block.irqMasked := a.hostMask.getD s.block.irqMasked }

/-- All that a step can do: hold the state, run the operation of the next call, or refuse a reserved
selector. -/
theorem step_cases (s : State) :
    (s.calls = [] ∧ step s = .next s) ∨
    ∃ a rest, s.calls = a :: rest ∧
      ((∃ i, decode a.call = .ok i ∧ step s = exec i (s.afterFetch a rest)) ∨
       (∃ r, decode a.call = .error r ∧ step s = .next ((s.afterFetch a rest).markRefused r))) := by
  cases hc : s.calls with
  | nil => exact .inl ⟨rfl, by simp [step, fetch_nil hc]⟩
  | cons a rest =>
    refine .inr ⟨a, rest, rfl, ?_⟩
    cases hd : decode a.call with
    | ok i => exact .inl ⟨i, rfl, by simp only [step, fetch_cons hc, hd]; rfl⟩
    | error r => exact .inr ⟨r, rfl, by simp only [step, fetch_cons hc, hd]; rfl⟩

end Sys2Proof.Machine
end

