-- ==== Sys2Proof/Laws/Events.lean ====
section
/-! SUPPORT. In what order the events of a transmission stand, once for each procedure. -/

namespace Sys2Proof.Machine

/-- While the mask is on, no window looks at the host's work. -/
theorem isCharacters_masked {bs : List Byte} : ∀ {i : Nat} {work : List (List Call)} {es : List Event}
    (work' : List (List Call)), isCharacters true i work bs es → isCharacters true i work' bs es := by
  induction bs with
  | nil => exact fun _ h => h
  | cons b bs ih =>
    rintro i work es work' ⟨written, on, off, slot, window, more, he, ⟨t, rs, hw, hl⟩, hm⟩
    exact ⟨written, on, off, slot, window, more, he, ⟨t, rs, hw, by simpa using hl⟩, ih _ hm⟩

/-- After a window, the characters to come find the work that the window left. -/
theorem isCharacters_drop {found : Bool} {i : Nat} {work : List (List Call)} {bs : List Byte}
    {es : List Event} (h : isCharacters found i (work.drop (windowsRun found 1)) bs es) :
    isCharacters found i work.tail bs es := by
  cases found
  · simpa [windowsRun] using h
  · exact isCharacters_masked _ h

theorem drivesAt_charLevels (b : Byte) {ts : List Nat} (h : ts.length = 10) :
    drivesAt ts (charLevels b) =
      (List.range 10).map (fun k => Event.drive (ts.getD k 0) (slotShape b k)) := by
  rw [charLevels_eq_charShape]
  apply List.ext_getElem
  · simp [charShape, h, drivesAt]
  · intro k h1 h2
    simp only [List.length_map, List.length_range] at h2
    simp [drivesAt, charShape, List.getElem?_eq_getElem (show k < ts.length by omega)]

/-- The characters of a transmission, with a window after each (R182, R188). -/
theorem sendChars_events (bs : List Byte) : ∀ (i : Nat) (s : State),
    ∃ t es, sendChars i bs s = .ok t ∧ Sent s t es ∧
      isCharacters s.block.irqMasked i s.hostWork bs es := by
  induction bs with
  | nil => exact fun i s => ⟨s, [], rfl, Sent.refl s, rfl⟩
  | cons b bs ih =>
    intro i s
    obtain ⟨u, t0, ts, hu, hlen, -, hran, -, -, -, -, hw, -⟩ := runTxByte_spec b (s.setTx (.byte i))
    obtain ⟨u', es1, hu', h1, -⟩ := sent_runTxByte b (s.setTx (.byte i))
    rw [hu] at hu'
    cases hu'
    obtain ⟨v, es2, hv, h2, -, -, hw2, -, hwin⟩ := sent_hostWindow u
    obtain ⟨t, es3, ht, h3, hchars⟩ := ih (i + 1) v
    have m1 : u.block.irqMasked = s.block.irqMasked := h1.irqMasked
    have he := List.append_cancel_left (h1.log.symm.trans hran.log)
    rw [m1, hw] at hw2 hwin
    rw [h2.irqMasked.trans m1, hw2] at hchars
    refine ⟨t, _, by simp only [sendChars, hu, hv, ht, Op.ok_bind],
      (((sent_setTx (.byte i) s).trans h1).trans h2).trans h3, s.now, t0, u.now, fun k => ts.getD k 0,
      es2, es3, ?_, hwin, isCharacters_drop hchars⟩
    rw [he, drivesAt_charLevels b hlen]
    simp [charEvents]

/-- SEND_BUFFER that is not refused (R182). -/
theorem runSendBuffer_events {buf : List Byte} {n : Nat} {s : State} (hi : s.block.txState = .idle)
    (hn : n ≤ buf.length) :
    ∃ t es, runSendBuffer buf n s = .ok t ∧ Sent s t es ∧
      isTransmission s.cfg s.block.irqMasked s.hostWork (buf.take n) es := by
  have h1 := sent_setTx .preamble s
  obtain ⟨ts, htl, h2⟩ := sent_runPreamble (s.setTx .preamble)
  obtain ⟨_, _, _, _, _, _, _, hw, _⟩ := runPreamble_spec (s.setTx .preamble)
  obtain ⟨v, es3, hv, h3, -, -, hw3, -, hwin⟩ := sent_hostWindow (runPreamble (s.setTx .preamble))
  obtain ⟨w, es4, hws, h4, hchars⟩ := sendChars_events (buf.take n) 0 v
  have h5 := sent_driveUnmasked .low w
  have h6 := sent_setTx .idle (w.driveUnmasked .low)
  have m2 : (runPreamble (s.setTx .preamble)).block.irqMasked = s.block.irqMasked := h2.irqMasked
  rw [m2, hw, State.setTx_hostWork] at hw3 hwin
  rw [h3.irqMasked.trans m2, hw3] at hchars
  refine ⟨(w.driveUnmasked .low).setTx .idle, _, ?_, ((((h1.trans h2).trans h3).trans h4).trans h5).trans h6,
    s.now, w.elapse.now, (w.driveUnmasked .low).now, ts, es3, es4, ?_, htl, hwin,
    isCharacters_drop hchars⟩
  · simp only [runSendBuffer, requireIdle_of_idle hi, Op.ok_bind, Nat.not_lt.mpr hn, if_false, hv, hws,
      Op.pure_eq]
  · simp [drivesAt]

/-- BUILD_AND_SEND that is not refused sends the built frame (R183). -/
theorem runBuildAndSend_events {snap : List Half} {s : State} (hi : s.block.txState = .idle)
    (hn : snap.length = numChannels) :
    ∃ t es, runBuildAndSend snap s = .ok t ∧ t.log = s.log ++ es ∧
      isTransmission s.cfg s.block.irqMasked s.hostWork (frameOf s.cfg snap) es := by
  let u := (((s.setSnap snap).setCursor 176).setCrcAcc
    (crcOf (frameType :: packOf snap))).setFrame (frameOf s.cfg snap)
  obtain ⟨t, es, ht, hs, he⟩ :=
    runSendBuffer_events (buf := frameOf s.cfg snap) (n := 26) (s := u) hi (by simp)
  rw [List.take_of_length_le (by simp)] at he
  refine ⟨t, es, ?_, hs.log, he⟩
  simp only [runBuildAndSend, requireIdle_of_idle hi, runBuildFrame_of_length hn, Op.ok_bind]
  exact ht

/-- TICK with its gate open (R220). -/
theorem runTickSend_events {s : State} (hi : s.block.txState = .idle) :
    ∃ t es, runTickSend s = .ok t ∧ t.log = s.log ++ es ∧
      isTransmission s.cfg s.block.irqMasked s.hostWork (frameOf s.cfg s.snapDraw) es := by
  let u := s.useSnapDraw.setSnap s.snapDraw
  obtain ⟨v, es, hv, hl, he⟩ :=
    runBuildAndSend_events (snap := s.snapDraw) (s := u) (by simpa [u] using hi) (snapDraw_length s)
  refine ⟨v.readTime.stamp (counterAt v.readTime.cfg v.readTime.now), es, ?_, by simp [hl, u],
    by simpa [u] using he⟩
  have hsnap : u.block.snap = some s.snapDraw := by simp [u]
  have e : runTickSend s = (do
      let snap ← readField .snap u.block.snap
      let s ← runBuildAndSend snap u
      return s.readTime.stamp (counterAt s.readTime.cfg s.readTime.now)) := rfl
  rw [e, hsnap, readField_some, Op.ok_bind, hv, Op.ok_bind, Op.pure_eq]

end Sys2Proof.Machine
end

