-- ==== Sys2Proof/Laws/Times.lean ====
section
/-! SUPPORT. When the events of a transmission fall, once for each procedure (R189). -/

namespace Sys2Proof.Machine

@[simp] theorem lineHistory_tx (t : Nat) (x : TxState) : lineHistory [.tx t x] = [] := rfl
@[simp] theorem lineHistory_mask (t : Nat) (on : Bool) : lineHistory [.mask t on] = [] := rfl
@[simp] theorem lineHistory_drive (t : Nat) (l : Level) : lineHistory [.drive t l] = [(t, l)] := rfl
@[simp] theorem maskHistory_tx (t : Nat) (x : TxState) : maskHistory [.tx t x] = [] := rfl
@[simp] theorem maskHistory_mask (t : Nat) (on : Bool) : maskHistory [.mask t on] = [(t, on)] := rfl
@[simp] theorem maskHistory_drive (t : Nat) (l : Level) : maskHistory [.drive t l] = [] := rfl

theorem zip_charLevels (b : Byte) {ts : List Nat} (h : ts.length = 10) :
    ts.zip (charLevels b) = (List.range 10).map (fun k => (ts.getD k 0, slotShape b k)) := by
  rw [charLevels_eq_charShape]
  apply List.ext_getElem
  · simp [charShape, h]
  · intro k h1 h2
    simp only [List.length_map, List.length_range] at h2
    simp [charShape, List.getElem?_eq_getElem (show k < ts.length by omega)]

/-- The characters of a transmission: each keeps its slots and its end within EDGE_SLACK of the boundaries
from its own start, and comes after the one before (R181, R189(a)). -/
theorem sendChars_times (bs : List Byte) : ∀ (i : Nat) (s : State),
    ∃ (t : State) (es : List Event) (start stop : Nat → Nat) (slot : Nat → Nat → Nat),
      sendChars i bs s = .ok t ∧ Sent s t es ∧
      lineHistory es = (List.range bs.length).flatMap (fun i =>
        (List.range 10).map (fun k => (slot i k, slotShape (bs.getD i 0#8) k))) ∧
      maskHistory es = (List.range bs.length).flatMap (fun i =>
        [(start i, true), (stop i, s.block.irqMasked)]) ∧
      (bs ≠ [] → s.now ≤ start 0) ∧
      (∀ i k : Nat, i < bs.length → k < 10 → start i + slotBoundary s.cfg k ≤ slot i k ∧
        slot i k ≤ start i + slotBoundary s.cfg k + s.cfg.edgeSlack) ∧
      (∀ i, i < bs.length → start i + slotBoundary s.cfg 10 ≤ stop i ∧
        stop i ≤ start i + slotBoundary s.cfg 10 + s.cfg.edgeSlack) ∧
      (∀ i, i + 1 < bs.length → stop i ≤ start (i + 1)) ∧
      (∀ i, i + 1 = bs.length → stop i ≤ t.now) := by
  induction bs with
  | nil =>
    exact fun i s => ⟨s, [], fun _ => 0, fun _ => 0, fun _ _ => 0, rfl, Sent.refl s, rfl, rfl,
      by simp, by simp, by simp, by simp, by simp⟩
  | cons b bs ih =>
    intro i s
    obtain ⟨u, t0, ts, hu, hlen, ht0, hran, hts, hlo, hhi, -⟩ := runTxByte_spec b (s.setTx (.byte i))
    obtain ⟨u', es1, hu', h1, -⟩ := sent_runTxByte b (s.setTx (.byte i))
    rw [hu] at hu'
    cases hu'
    have e1 := List.append_cancel_left (h1.log.symm.trans hran.log)
    obtain ⟨v, es2, hv, h2, ho, -⟩ := sent_hostWindow u
    obtain ⟨t, es3, start, stop, slot, ht, h3, hl, hm, hs0, hsl, hst, hss, hse⟩ := ih (i + 1) v
    have h12 := ((sent_setTx (.byte i) s).trans h1).trans h2
    rw [h12.cfg] at hsl hst
    have n2 := h2.now_le
    refine ⟨t, _, fun | 0 => t0 | j + 1 => start j, fun | 0 => u.now | j + 1 => stop j,
      fun | 0 => fun k => ts.getD k 0 | j + 1 => slot j,
      by simp only [sendChars, hu, hv, ht, Op.ok_bind], h12.trans h3, ?_, ?_, fun _ => ht0, ?_, ?_, ?_, ?_⟩
    · simp only [lineHistory_append, e1, drivesAt_lineHistory, zip_charLevels b hlen, ho.lineHistory, hl,
        List.length_cons, List.range_succ_eq_map (n := bs.length), List.flatMap_cons]
      simp [List.flatMap_map]
    · simp only [maskHistory_append, e1, drivesAt_maskHistory, ho.maskHistory, hm, h12.irqMasked,
        List.length_cons, List.range_succ_eq_map (n := bs.length), List.flatMap_cons]
      simp [List.flatMap_map]
    · intro j k hj hk
      cases j with
      | zero =>
        exact hts k _ (by
          simp [List.getD_eq_getElem?_getD, List.getElem?_eq_getElem (show k < ts.length by omega)])
      | succ j => exact hsl j k (by simpa using hj) hk
    · intro j hj
      cases j with
      | zero => exact ⟨hlo, hhi⟩
      | succ j => exact hst j (by simpa using hj)
    · intro j hj
      cases j with
      | zero => exact n2.trans (hs0 (by rintro rfl; simp at hj))
      | succ j => exact hss j (by simpa using hj)
    · intro j hj
      cases j with
      | zero => exact n2.trans h3.now_le
      | succ j => exact hse j (by simpa using hj)

/-- SEND_BUFFER that is not refused (R189). -/
theorem runSendBuffer_times {buf : List Byte} {n : Nat} {s : State} (hi : s.block.txState = .idle)
    (hn : n ≤ buf.length) :
    ∃ t es, runSendBuffer buf n s = .ok t ∧ Sent s t es ∧
      keepsTimeBounds s.cfg s.block.irqMasked s.now t.now (buf.take n) es := by
  have h1 := sent_setTx .preamble s
  obtain ⟨ts, htl, hr, hg, hlast, hnow, hblk, -⟩ := runPreamble_spec (s.setTx .preamble)
  obtain ⟨ts', htl', h2⟩ := sent_runPreamble (s.setTx .preamble)
  obtain ⟨v, es3, hv, h3, ho, -⟩ := sent_hostWindow (runPreamble (s.setTx .preamble))
  obtain ⟨w, es4, start, stop, slot, hw, h4, hl, hm, hs0, hsl, hst, hss, hse⟩ :=
    sendChars_times (buf.take n) 0 v
  have h5 := sent_driveUnmasked .low w
  have h6 := sent_setTx .idle (w.driveUnmasked .low)
  have e2 := List.append_cancel_left (h2.log.symm.trans hr.log)
  rw [e2] at h2
  have h123 := (h1.trans h2).trans h3
  rw [h123.cfg] at hsl hst
  have n3 := h3.now_le
  have n4 := h4.now_le
  have n5 := (ran_elapse w).now_le
  simp only [State.setTx_cfg, State.setTx_now] at htl hr hg hlast hnow
  refine ⟨(w.driveUnmasked .low).setTx .idle, _, ?_, ((h123.trans h4).trans h5).trans h6,
    fun k => ts.getD k 0, start, stop, slot, w.elapse.now, ?_, ?_, ?_, fun h => ?_, fun h => ?_, hsl, hst,
    hss, fun i h => (hse i h).trans n5, le_refl _⟩
  · simp only [runSendBuffer, requireIdle_of_idle hi, Op.ok_bind, Nat.not_lt.mpr hn, if_false, hv, hw,
      Op.pure_eq]
  · simp only [lineHistory_append, drivesAt_lineHistory, ho.lineHistory, hl, lineHistory_tx,
      lineHistory_drive, State.setTx_cfg, List.nil_append, List.append_nil]
    congr 2
    cases hp : s.cfg.preambleEnable
    · simp [preambleShape, hp]
    · simp only [preambleShape, hp, if_true] at htl ⊢
      match ts, htl with
      | [_, _, _, _], _ => rfl
  · simp only [maskHistory_append, drivesAt_maskHistory, ho.maskHistory, hm, h123.irqMasked,
      maskHistory_tx, maskHistory_drive, List.nil_append, List.append_nil]
  · intro hp
    simp only [preambleShape, hp, if_true] at htl hr
    match ts, htl, hg, hlast, hr with
    | [a, b, c, d], _, hg, hlast, hr =>
      have g4 : d + s.cfg.preamblePhaseTicks + s.cfg.gapTicks ≤ _ := hlast d rfl
      have ha := hr.times
      simp only [drivesAt_cons, timesWithin, Event.time, Bool.and_eq_true] at ha
      refine ⟨of_decide_eq_true ha.1, ?_, fun h => (g4.trans n3).trans (hs0 h), fun _ => ((g4.trans n3).trans n4).trans n5⟩
      intro j hj
      match j, hj with
      | 0, _ => exact hg 0 a b rfl rfl
      | 1, _ => exact hg 1 b c rfl rfl
      | 2, _ => exact hg 2 c d rfl rfl
  · have := hs0 h
    omega
  · omega

/-- A transmission keeps its bounds where it is given more room. -/
theorem keepsTimeBounds_mono {c : Config} {found : Bool} {a a' b b' : Nat} {bytes : List Byte}
    {es : List Event} (h : keepsTimeBounds c found a b bytes es) (ha : a' ≤ a) (hb : b ≤ b') :
    keepsTimeBounds c found a' b' bytes es := by
  obtain ⟨pre, start, stop, slot, last, h1, h2, h3, h4, h5, h6, h7, h8, h9, h10⟩ := h
  exact ⟨pre, start, stop, slot, last, h1, h2, fun hp => ⟨ha.trans (h3 hp).1, (h3 hp).2⟩,
    fun he => by have := h4 he; omega, fun he => by have := h5 he; omega, h6, h7, h8, h9, h10.trans hb⟩

/-- BUILD_AND_SEND that is not refused sends the built frame (R183, R189). -/
theorem runBuildAndSend_times {snap : List Half} {s : State} (hi : s.block.txState = .idle)
    (hn : snap.length = numChannels) :
    ∃ t es, runBuildAndSend snap s = .ok t ∧ t.log = s.log ++ es ∧
      keepsTimeBounds s.cfg s.block.irqMasked s.now t.now (frameOf s.cfg snap) es := by
  let u := (((s.setSnap snap).setCursor 176).setCrcAcc
    (crcOf (frameType :: packOf snap))).setFrame (frameOf s.cfg snap)
  obtain ⟨t, es, ht, hs, he⟩ :=
    runSendBuffer_times (buf := frameOf s.cfg snap) (n := 26) (s := u) hi (by simp)
  rw [List.take_of_length_le (by simp)] at he
  refine ⟨t, es, ?_, hs.log, he⟩
  simp only [runBuildAndSend, requireIdle_of_idle hi, runBuildFrame_of_length hn, Op.ok_bind]
  exact ht

/-- TICK with its gate open (R189, R220). -/
theorem runTickSend_times {s : State} (hi : s.block.txState = .idle) :
    ∃ t es, runTickSend s = .ok t ∧ t.log = s.log ++ es ∧
      keepsTimeBounds s.cfg s.block.irqMasked s.now t.now (frameOf s.cfg s.snapDraw) es := by
  let u := s.useSnapDraw.setSnap s.snapDraw
  obtain ⟨v, es, hv, hl, he⟩ :=
    runBuildAndSend_times (snap := s.snapDraw) (s := u) (by simpa [u] using hi) (snapDraw_length s)
  refine ⟨v.readTime.stamp (counterAt v.readTime.cfg v.readTime.now), es, ?_, by simp [hl, u],
    keepsTimeBounds_mono (by simpa [u] using he) (le_refl _) (by simpa using (ran_readTime v).now_le)⟩
  have hsnap : u.block.snap = some s.snapDraw := by simp [u]
  have e : runTickSend s = (do
      let snap ← readField .snap u.block.snap
      let s ← runBuildAndSend snap u
      return s.readTime.stamp (counterAt s.readTime.cfg s.readTime.now)) := rfl
  rw [e, hsnap, readField_some, Op.ok_bind, hv, Op.ok_bind, Op.pure_eq]

end Sys2Proof.Machine
end

