-- ==== Sys2Proof/Tests/Slice0.lean ====
section
/-! SUPPORT. The model's own tests: decoding by words written out from R104, the smoke test of WellFormed, worked examples of spec/95_test_vectors.md, and a witness for the hypotheses of each statement. -/

namespace Sys2Proof.Tests

open Sys2Proof.Machine

/-! ### Decoding, by the encodings of spec/opcode_table.json and R104 -/

/-- A call with recognisable operand values, for the decoding tests. -/
def callOf (sel : Byte) : Call := ⟨sel, ⟨0x12#8, 0x34#8, [0x16#8, 0x18#8], 2, [991#16]⟩⟩

theorem test_decode_crc8Byte : decode (callOf 0b00000001#8) = .ok (.crc8Byte 0x12#8 0x34#8) := by decide
theorem test_decode_crc8 : decode (callOf 0b00000010#8) = .ok (.crc8 [0x16#8, 0x18#8] 2) := by decide
theorem test_decode_pack : decode (callOf 0b00010000#8) = .ok (.pack [991#16]) := by decide
theorem test_decode_unpack : decode (callOf 0b00010001#8) = .ok (.unpack [0x16#8, 0x18#8]) := by decide
theorem test_decode_buildFrame : decode (callOf 0b00100000#8) = .ok (.buildFrame [991#16]) := by decide
theorem test_decode_txPreamble : decode (callOf 0b00110000#8) = .ok .txPreamble := by decide
theorem test_decode_txByte : decode (callOf 0b00110001#8) = .ok (.txByte 0x34#8) := by decide
theorem test_decode_sendBuffer :
    decode (callOf 0b00110010#8) = .ok (.sendBuffer [0x16#8, 0x18#8] 2) := by decide
theorem test_decode_buildAndSend : decode (callOf 0b01000000#8) = .ok (.buildAndSend [991#16]) := by decide
theorem test_decode_tick : decode (callOf 0b01010000#8) = .ok .tick := by decide
theorem test_decode_reset : decode (callOf 0b01100000#8) = .ok .reset := by decide

/-- Section 7 of 95_test_vectors.md: 0x03, 0xFF and 0x00 are reserved. -/
theorem test_decode_reserved :
    decode (callOf 0x03#8) = .error .reservedSelector ∧ decode (callOf 0xFF#8) = .error .reservedSelector ∧
    decode (callOf 0x00#8) = .error .reservedSelector := by decide

/-- Every table word is read, and runs as the first operation after reset. -/
theorem test_tableWords_run :
    ([0x01, 0x02, 0x10, 0x11, 0x20, 0x30, 0x31, 0x32, 0x40, 0x50, 0x60].all fun w =>
      (decodeTableWord 8 w).isSome &&
        match step (State.reset.withFetchWord 8 w) with
        | .next t => decide (t.block.refused = false)
        | .fault _ => false
        | .refused _ => false) = true := by decide +kernel

theorem test_tableWord_width : decodeTableWord 16 0x50 = none := by decide

/-! ### WellFormed refuses what R104 does not admit -/

theorem test_wf_crc8 : (Instr.crc8 [0x16#8, 0x18#8] 3).wellFormed = false := by decide
theorem test_wf_pack : (Instr.pack (List.replicate 15 991#16)).wellFormed = false := by decide
theorem test_wf_unpack : (Instr.unpack (List.replicate 23 0#8)).wellFormed = false := by decide
theorem test_wf_buildFrame : (Instr.buildFrame (List.replicate 17 991#16)).wellFormed = false := by decide
theorem test_wf_sendBuffer : (Instr.sendBuffer [0x55#8] 2).wellFormed = false := by decide
theorem test_wf_buildAndSend : (Instr.buildAndSend (List.replicate 15 991#16)).wellFormed = false := by decide

/-! ### Worked examples of spec/95_test_vectors.md -/

/-- The state of an outcome, where there is one. -/
def nextOf (o : Host.Outcome State Fault Refusal) : Option State :=
  match o with
  | .next t => some t
  | .fault _ => none
  | .refused _ => none

/-- An outcome that is a next state with a decidable property. -/
theorem exists_next {o : Host.Outcome State Fault Refusal} (p : State → Prop) [DecidablePred p]
    (h : (nextOf o).any (fun t => decide (p t)) = true) : ∃ t, o = .next t ∧ p t := by
  cases o with
  | next t => exact ⟨t, rfl, by simpa [nextOf] using h⟩
  | fault _ => simp [nextOf] at h
  | refused _ => simp [nextOf] at h

/-- What an operation gives back. -/
def retOf (i : Instr) (s : State) : Option Return := (nextOf (exec i s)).map State.ret

/-- The ideal timing of section 5: a mock clock whose time advances only inside WaitUntil. -/
def ideal : State := { State.reset with timeInputs := List.replicate 400 0 }

/-- The same with the preamble disabled (P4). -/
def idealNoPreamble : State := { ideal with cfg := { Config.reference with preambleEnable := false } }

/-- IDLE after a TICK transmission that was stamped at 1000, at time `now` (section 6). -/
def stamped (now : Nat) : State :=
  { ideal with now := now, block := { Block.reset with sentAny := true, lastSend := some 1000 } }

/-- The same with a time counter of 23 bits (R226). -/
def wrapping (now : Nat) : State :=
  { stamped now with cfg := { Config.reference with timeWidth := some 23 } }

/-- What host activity finds between characters 3 and 4 of a transmission (section 5.2). -/
def sending : State := { ideal with block := { Block.reset with txState := .byte 3 } }

/-- Section 2.2: T[0x26], and the bit trace of CRC8_BYTE 00, 16. -/
theorem test_crc8Byte : retOf (.crc8Byte 0x12#8 0x34#8) ideal = some (.byte 0x25#8) ∧
    retOf (.crc8Byte 0x00#8 0x16#8) ideal = some (.byte 0xD3#8) := by decide +kernel
/-- The intermediate accumulators of R120's worked example. -/
theorem test_crcShift_trace : (List.range 9).map (fun n => crcShifts n 0x16#8) =
    [0x16#8, 0x2C#8, 0x58#8, 0xB0#8, 0xB5#8, 0xBF#8, 0xAB#8, 0x83#8, 0xD3#8] := by decide +kernel
/-- Section 2.3: the golden vector L1-1 and the catalogue's check value. -/
theorem test_crc8 : retOf (.crc8 (0x16#8 :: List.replicate 22 0#8) 23) ideal = some (.byte 0xEF#8) ∧
    retOf (.crc8 [0x31#8, 0x32#8, 0x33#8, 0x34#8, 0x35#8, 0x36#8, 0x37#8, 0x38#8, 0x39#8] 9) ideal =
      some (.byte 0xBC#8) := by decide +kernel
/-- Section 2.3: length 0, bytes beyond the length, and the refusal. -/
theorem test_crc8_lengths : retOf (.crc8 [0x16#8, 0x18#8] 0) ideal = some (.byte 0x00#8) ∧
    retOf (.crc8 [0x16#8, 0x18#8] 1) ideal = some (.byte 0xD3#8) ∧
    retOf (.crc8 [0x16#8, 0x18#8] 3) ideal = some (.refused .crcLengthBeyondBuffer) := by decide +kernel
/-- Section 3: [0, 1, ..., 15]. -/
theorem test_pack : retOf (.pack ((List.range 16).map (BitVec.ofNat 16))) ideal = some (.bytes
    [0x00#8, 0x08#8, 0x80#8, 0x00#8, 0x06#8, 0x40#8, 0x80#8, 0x02#8, 0x18#8, 0xE0#8, 0x00#8,
     0x08#8, 0x48#8, 0x80#8, 0x02#8, 0x16#8, 0xC0#8, 0x80#8, 0x06#8, 0x38#8, 0xE0#8, 0x01#8]) := by decide +kernel
/-- Section 3: bits 15..11 are dropped; 15 values are refused. -/
theorem test_pack_truncates :
    retOf (.pack (List.replicate 15 0#16 ++ [0xFFFF#16])) ideal =
      some (.bytes (List.replicate 20 0#8 ++ [0xE0#8, 0xFF#8])) ∧
    retOf (.pack (List.replicate 15 991#16)) ideal = some (.refused .wrongChannelCount) := by decide +kernel
/-- Section 3, UNPACK-only vectors. -/
theorem test_unpack : retOf (.unpack ((List.range 22).map fun k => BitVec.ofNat 8 (k + 1))) ideal =
    some (.halves [513#16, 96#16, 1040#16, 770#16, 112#16, 528#16, 642#16, 88#16, 1292#16, 449#16, 60#16,
      136#16, 289#16, 38#16, 1349#16, 176#16]) := by decide +kernel
theorem test_unpack_size : retOf (.unpack (List.replicate 21 0#8)) ideal =
    some (.refused .wrongPayloadSize) := by decide +kernel
/-- Section 4: the all-991 frame. -/
theorem test_buildFrame : retOf (.buildFrame (List.replicate 16 991#16)) ideal = some (.bytes
    [0xC8#8, 0x18#8, 0x16#8, 0xDF#8, 0xFB#8, 0xDE#8, 0xF7#8, 0xBE#8, 0xF7#8, 0xBD#8, 0xEF#8, 0x7D#8, 0xEF#8,
     0x7B#8, 0xDF#8, 0xFB#8, 0xDE#8, 0xF7#8, 0xBE#8, 0xF7#8, 0xBD#8, 0xEF#8, 0x7D#8, 0xEF#8, 0x7B#8,
     0xA4#8]) := by decide +kernel
/-- Section 4: ADDR is outside the checksum. -/
theorem test_buildFrame_addr :
    retOf (.buildFrame (List.replicate 16 0#16)) { ideal with cfg := { Config.reference with addr := 0xEE#8 } } =
      some (.bytes ([0xEE#8, 0x18#8, 0x16#8] ++ List.replicate 22 0#8 ++ [0xEF#8])) := by decide +kernel
/-- Section 5.3: the preamble's drives and its end. -/
theorem test_txPreamble : (nextOf (exec .txPreamble ideal)).map (fun t => (lineHistory t.log, t.now)) =
    some ([(0, .high), (571, .low), (1142, .high), (1713, .low)], 26284) := by decide +kernel
theorem test_txPreamble_disabled :
    (nextOf (exec .txPreamble idealNoPreamble)).map (fun t => (lineHistory t.log, t.now)) =
      some ([], 24000) := by decide +kernel
/-- Section 5.2: TX_BYTE 0xC8 at 0. -/
theorem test_txByte : (nextOf (exec (.txByte 0xC8#8) ideal)).map (fun t => (lineHistory t.log, t.now)) =
    some ([(0, .high), (571, .high), (1142, .high), (1714, .high), (2285, .low), (2857, .high),
      (3428, .high), (4000, .low), (4571, .low), (5142, .low)], 5714) := by decide +kernel
/-- R246: the mask is held for one character only, also where the operation starts late. -/
theorem test_txByte_mask : (nextOf (exec (.txByte 0xC8#8) { ideal with
      timeInputs := 7 :: List.replicate 20 0 })).map (fun t => maskHistory t.log) =
    some [(7, true), (5721, false)] := by decide +kernel
/-- Section 5.2: TX_BYTE between characters is refused. -/
theorem test_txByte_refused : retOf (.txByte 0x00#8) sending = some (.refused .reentrantTransmit) := by decide +kernel
/-- P4: one character with the preamble disabled. -/
theorem test_sendBuffer :
    (nextOf (exec (.sendBuffer [0x55#8] 1) idealNoPreamble)).map (fun t => (lineHistory t.log, t.now)) =
    some ([(24000, .high), (24571, .low), (25142, .high), (25714, .low), (26285, .high), (26857, .low),
      (27428, .high), (28000, .low), (28571, .high), (29142, .low), (29714, .low)], 29714) := by decide +kernel
/-- R182: what stands before the character's drives, and after them. -/
theorem test_sendBuffer_order :
    (nextOf (exec (.sendBuffer [0x55#8] 1) idealNoPreamble)).map (fun t => (t.log.take 3, t.log.drop 13)) =
    some ([.tx 0 .preamble, .tx 24000 (.byte 0), .mask 24000 true],
      [.mask 29714 false, .drive 29714 .low, .tx 29714 .idle]) := by decide +kernel
/-- Section 5.4: a gap of 1000 after character 0 moves character 1; a host TICK in it is refused. -/
theorem test_sendBuffer_hostWindow :
    (nextOf (exec (.sendBuffer [0xFF#8, 0xFF#8] 2) { idealNoPreamble with
        timeInputs := List.replicate 15 0 ++ [1000] ++ List.replicate 100 0,
        hostWork := [[], [callOf 0x50#8]] })).map
      (fun t => (t.now, t.block.refused, t.log.contains (.host 30714 (.refused .reentrantTransmit)))) =
    some (36428, true, true) := by decide +kernel
/-- Section 5.4: BUILD_AND_SEND of the all-991 frame. -/
theorem test_buildAndSend : (nextOf (exec (.buildAndSend (List.replicate 16 991#16)) ideal)).map
    (fun t => ((lineHistory t.log).length, t.now, t.block.line)) = some (265, 174848, .low) := by decide +kernel
/-- P1: the stamp of the first TICK after reset. -/
theorem test_tick_first : (nextOf (exec .tick ideal)).map (fun t => (t.block.lastSend, t.block.sentAny)) =
    some (some 174848, true) := by decide +kernel
/-- Section 6, boundary vectors of the gate. -/
theorem test_tick_gate :
    (nextOf (exec .tick (stamped 4800999))).map (fun t => t.log.isEmpty) = some true ∧
    (nextOf (exec .tick (stamped 4801000))).map (fun t => t.log.isEmpty) = some false := by decide +kernel
/-- R268: with a counter of 23 bits the gate opens at INTERVAL_TICKS, and not one wrap after the stamp. -/
theorem test_tick_wrapping :
    ((nextOf (exec .tick (wrapping 4801000))).map fun t => (t.log.isEmpty, t.block.lastSend)) =
      some (false, some 4975848) ∧
    ((nextOf (exec .tick (wrapping (2 ^ 23 + 1000)))).map fun t => (t.log.isEmpty, t.block.lastSend)) =
      some (true, some 1000) := by decide +kernel
/-- Section 7: RESET from an IDLE state, and during a transmission. -/
theorem test_reset : (nextOf (exec .reset (stamped 5000))).map
    (fun t => (t.block.lastSend, t.block.sentAny, lineHistory t.log)) =
      some (none, false, [(5000, .low)]) ∧
    retOf .reset sending = some (.refused .reentrantTransmit) := by decide +kernel
/-- P5: the refusal mark stays in the run. -/
theorem test_refusedMark : ((nextOf (step { ideal with
      calls := [⟨0, none, ⟨0x02#8, ⟨0#8, 0#8, [0x16#8, 0x18#8], 3, []⟩⟩⟩, ⟨0, none, ⟨0x60#8, Operands.unused⟩⟩] })).bind
        fun t => nextOf (step t)).map (fun t => (t.block.refused, t.ret)) = some (true, .unit) := by
  decide +kernel

/-! ### Witnesses: concrete states and operands that meet the hypotheses of each statement -/

theorem witness_ReservedSelectorIsRefused : ∃ t,
    ({ ideal with calls := [⟨7, some true, callOf 0x61#8⟩] } : State).fetch = some (t, callOf 0x61#8) ∧
    (callOf 0x61#8).sel ∉
      [0x01#8, 0x02#8, 0x10#8, 0x11#8, 0x20#8, 0x30#8, 0x31#8, 0x32#8, 0x40#8, 0x50#8, 0x60#8] :=
  ⟨_, rfl, by decide⟩

theorem witness_StepRunsDecodedCall :
    ({ ideal with calls := [⟨7, none, callOf 0x31#8⟩] } : State).calls = [⟨7, none, callOf 0x31#8⟩] ∧
    decode (callOf 0x31#8) = .ok (.txByte 0x34#8) := by decide

theorem witness_StepWithoutCallHolds : State.reset.calls = [] := rfl

/-- The two clauses at the boundary: length 2 of 2 bytes, and length 3. -/
theorem witness_Crc8FoldsTheRange :
    2 ≤ [0x16#8, 0x18#8].length ∧ ([0x16#8, 0x18#8] : List Byte).length < 3 := by decide

theorem witness_Crc8IsPolynomialRemainder : 23 ≤ (0x16#8 :: List.replicate 22 0#8 : List Byte).length := by
  decide

theorem witness_Crc8IsLinear : ([0x16#8, 0x00#8] : List Byte).length = [0x00#8, 0x18#8].length := by decide

theorem witness_Crc8DetectsSingleByteChange :
    1 < ([0x16#8, 0x18#8] : List Byte).length ∧ ([0x16#8, 0x18#8] : List Byte)[1]? ≠ some 0x19#8 := by decide

/-- For PackPlacesEveryChannelBit, PackTruncatesToElevenBits, UnpackInvertsPack, FrameHasTheSpecifiedLayout
and FrameTailIgnoresTheAddress; the last clause of UnpackInvertsPack is met by these values, at 2047 too. -/
theorem witness_sixteenValues : (List.replicate 15 991#16 ++ [2047#16] : List Half).length = 16 ∧
    ∀ v ∈ (List.replicate 15 991#16 ++ [2047#16] : List Half), v.toNat ≤ 2047 := by
  simp

/-- For PackPlacesEveryChannelBit: the last bit of the last channel. -/
theorem witness_lastChannelBit : (15 < 16 ∧ 10 < 11) ∧ (11 * 15 + 10) / 8 = 21 := by decide

/-- For UnpackSumsTheFieldBits and PackIsBijectionOntoPayloads. -/
theorem witness_payload : (List.replicate 22 0xFF#8 : List Byte).length = 22 := by decide

theorem witness_PackAndFrameSizesAreFixed :
    (∃ t p, exec (.pack (List.replicate 16 991#16)) ideal = .next t ∧ t.ret = .bytes p) ∧
    (∃ t f, exec (.buildFrame (List.replicate 16 991#16)) ideal = .next t ∧ t.ret = .bytes f) := by
  obtain ⟨t, h, k⟩ := exists_next (o := exec (.pack (List.replicate 16 991#16)) ideal)
    (fun t => t.ret = .bytes (packOf (List.replicate 16 991#16))) (by decide +kernel)
  obtain ⟨u, h', k'⟩ := exists_next (o := exec (.buildFrame (List.replicate 16 991#16)) ideal)
    (fun t => t.ret = .bytes (frameOf ideal.cfg (List.replicate 16 991#16))) (by decide +kernel)
  exact ⟨⟨t, _, h, k⟩, ⟨u, _, h', k'⟩⟩

theorem witness_ReceiverCheckOfFrameIsZero :
    ∃ t f, exec (.buildFrame (List.replicate 16 172#16)) ideal = .next t ∧ t.ret = .bytes f := by
  obtain ⟨t, h, k⟩ := exists_next (o := exec (.buildFrame (List.replicate 16 172#16)) ideal)
    (fun t => t.ret = .bytes (frameOf ideal.cfg (List.replicate 16 172#16))) (by decide +kernel)
  exact ⟨t, _, h, k⟩

/-- For the statements about an operation invoked while IDLE: TxByteDrivesOneCharacter,
TxPreambleHoldsLevelsAndGap (with the preamble and without), FirstTickAfterResetTransmits,
ResetGivesTheTableValues. -/
theorem witness_idle : ideal.block.txState = .idle ∧ ideal.cfg.preambleEnable = true ∧
    idealNoPreamble.block.txState = .idle ∧ idealNoPreamble.cfg.preambleEnable = false := by decide

/-- For the second clause of FirstTickAfterResetTransmits: a refused call and a PACK stand in between. -/
theorem witness_firstTickLater :
    ∃ t, exec .reset { ideal with calls := [⟨5, none, callOf 0xFF#8⟩, ⟨6, none, callOf 0x10#8⟩,
        ⟨9, none, callOf 0x50#8⟩] } = .next t ∧
      t.calls = [⟨5, none, callOf 0xFF#8⟩, ⟨6, none, callOf 0x10#8⟩] ++ [⟨9, none, callOf 0x50#8⟩] ∧
      decode (callOf 0xFF#8) ≠ .ok .tick ∧ decode (callOf 0x10#8) ≠ .ok .tick ∧
      decode (callOf 0x50#8) = .ok .tick := by
  obtain ⟨t, h, k⟩ := exists_next
    (o := exec .reset { ideal with calls := [⟨5, none, callOf 0xFF#8⟩, ⟨6, none, callOf 0x10#8⟩,
      ⟨9, none, callOf 0x50#8⟩] })
    (fun t => t.calls = [⟨5, none, callOf 0xFF#8⟩, ⟨6, none, callOf 0x10#8⟩] ++
      [⟨9, none, callOf 0x50#8⟩]) (by decide +kernel)
  exact ⟨t, h, k, by decide, by decide, by decide⟩

/-- A configuration that sets BIT_TOLERANCE, and meets it with EDGE_SLACK 2. -/
def tolerant : State :=
  { ideal with cfg := { Config.reference with edgeSlack := 2, bitTolerance := some (1 / 100) } }

theorem tolerant_meets : meetsBitTolerance tolerant.cfg = true := by
  simp only [meetsBitTolerance, tolerant, bitUs, Config.reference, Config.forFTick]
  norm_num

theorem witness_SlotDurationsMeetTolerance :
    tolerant.cfg.wf ∧ tolerant.block.txState = .idle ∧ tolerant.cfg.bitTolerance = some (1 / 100) ∧
    meetsBitTolerance tolerant.cfg = true ∧
    ∃ (t : State) (at_ : Nat → Nat), exec (.txByte 0xC8#8) tolerant = .next t ∧
      lineHistory t.log = lineHistory tolerant.log ++
        (List.range 10).map (fun k => (at_ k, slotShape 0xC8#8 k)) ∧ at_ 10 = t.now := by
  let at_ : Nat → Nat := fun k =>
    [0, 571, 1142, 1714, 2285, 2857, 3428, 4000, 4571, 5142, 5714].getD k 0
  obtain ⟨t, h, k⟩ := exists_next (o := exec (.txByte 0xC8#8) tolerant)
    (fun t => lineHistory t.log = lineHistory tolerant.log ++
      (List.range 10).map (fun k => (at_ k, slotShape 0xC8#8 k)) ∧ at_ 10 = t.now) (by decide +kernel)
  exact ⟨by decide, rfl, rfl, tolerant_meets, t, at_, h, k⟩

/-- For SendBufferSendsTheBytes, TransmissionKeepsTheTimeBounds and TransmissionEventsStandInOrder: all of
the buffer, and none of it. -/
theorem witness_sendBuffer : ideal.block.txState = .idle ∧ 1 ≤ [0x55#8].length ∧
    0 ≤ ([] : List Byte).length ∧ ideal.hostWork = [] := by decide

/-- For BuildAndSendSendsTheFrame, ReferenceFrameDurationBound, TransmissionKeepsTheTimeBounds,
TransmissionEventsStandInOrder and TransmissionGivesHostItsWindows. -/
theorem witness_buildAndSend : ideal.block.txState = .idle ∧
    ideal.cfg = { Config.reference with preambleEnable := true } ∧
    idealNoPreamble.cfg = { Config.reference with preambleEnable := false } ∧
    (List.replicate 16 991#16 : List Half).length = 16 := by decide

/-- For LineIsIdleAfterTransmission, and TICK's clauses of TransmissionKeepsTheTimeBounds,
TransmissionEventsStandInOrder and TransmissionGivesHostItsWindows. -/
theorem witness_LineIsIdleAfterTransmission :
    (∃ t es, exec (.sendBuffer [] 0) ideal = .next t ∧ (∀ r, t.ret ≠ .refused r) ∧ t.log = ideal.log ++ es) ∧
    (∃ t es, exec .tick ideal = .next t ∧ (∀ r, t.ret ≠ .refused r) ∧ t.log = ideal.log ++ es ∧
      lineHistory es ≠ []) := by
  obtain ⟨t, h, k⟩ := exists_next (o := exec (.sendBuffer [] 0) ideal) (fun t => t.ret = .unit)
    (by decide +kernel)
  obtain ⟨u, h', k', l'⟩ := exists_next (o := exec .tick ideal)
    (fun t => t.ret = .unit ∧ lineHistory t.log ≠ []) (by decide +kernel)
  exact ⟨⟨t, t.log, h, by simp [k], rfl⟩, ⟨u, u.log, h', by simp [k'], rfl, l'⟩⟩

theorem witness_WaveformDeterminesTheBytes :
    ∃ t es, exec (.sendBuffer [0x55#8] [0x55#8].length) idealNoPreamble = .next t ∧
      idealNoPreamble.block.txState = .idle ∧ t.log = idealNoPreamble.log ++ es := by
  obtain ⟨t, h, -⟩ := exists_next (o := exec (.sendBuffer [0x55#8] [0x55#8].length) idealNoPreamble)
    (fun t => t.ret = .unit) (by decide +kernel)
  exact ⟨t, t.log, h, rfl, rfl⟩

/-- For TxStateTakesListedTransitions, CriticalSectionsAreReleased, MaskIsHeldAtMostOneCharacter and the
second clause of RefusedMarkIsNeverCleared: an operation that completes, and one that is refused. -/
theorem witness_exec : (∃ t, exec (.sendBuffer [0x55#8] 1) ideal = .next t ∧ t.ret = .unit) ∧
    (∃ t, exec .tick sending = .next t ∧ t.ret = .refused .reentrantTransmit) :=
  ⟨exists_next _ (by decide +kernel), exists_next _ (by decide +kernel)⟩

/-- For EventTimesNeverDecrease, ConfigurationIsReadOnly and StepsKeepTheStateBetweenOperations: a step
that runs SEND_BUFFER from a state between operations. -/
theorem witness_step : ideal.block.betweenOps ∧
    ∃ t, step { ideal with calls := [⟨5, none, ⟨0x32#8, ⟨0#8, 0#8, [0x55#8], 1, []⟩⟩⟩] } = .next t ∧
      t.block.txState = .idle :=
  ⟨by decide, exists_next _ (by decide +kernel)⟩

/-- For the first clause of RefusedMarkIsNeverCleared: a RESET after a refusal. -/
theorem witness_RefusedMarkIsNeverCleared :
    ∃ t, step { ideal with block := { Block.reset with refused := true },
                           calls := [⟨0, none, ⟨0x60#8, Operands.unused⟩⟩] } = .next t ∧ t.ret = .unit :=
  exists_next _ (by decide +kernel)

/-- For the last clause of RefusedMarkIsNeverCleared: a TICK that host activity calls within SEND_BUFFER. -/
theorem witness_RefusedMarkOutlivesTheOperation :
    ∃ t es, exec (.sendBuffer [] 0) { ideal with hostWork := [[callOf 0x50#8]] } = .next t ∧
      t.log = ideal.log ++ es ∧ .refused .reentrantTransmit ∈ hostAnswers es := by
  obtain ⟨t, h, k⟩ := exists_next
    (o := exec (.sendBuffer [] 0) { ideal with hostWork := [[callOf 0x50#8]] })
    (fun t => .refused .reentrantTransmit ∈ hostAnswers t.log) (by decide +kernel)
  exact ⟨t, t.log, h, rfl, k⟩

/-- For the third and fourth clauses of RefusedMarkIsNeverCleared: a reserved selector, and a TICK of host activity. -/
theorem witness_RefusedMarkIsSet :
    (∃ t, step { ideal with calls := [⟨0, none, ⟨0xFF#8, Operands.unused⟩⟩] } = .next t ∧
      t.ret = .refused .reservedSelector) ∧
    hostCall (callOf 0x50#8) sending = .ok (sending.hostRefused .reentrantTransmit) ∧
    (sending.hostRefused .reentrantTransmit).log =
      sending.log ++ [.host sending.now (.refused .reentrantTransmit)] :=
  ⟨exists_next _ (by decide +kernel), rfl, rfl⟩

/-- For RefusalsAreThoseOfTheTable: each reason of R241 has an operation, and each clause a state. -/
theorem witness_RefusalsAreThoseOfTheTable :
    refusalOf (.crc8 [] 1) .idle = some .crcLengthBeyondBuffer ∧
    refusalOf (.pack []) .idle = some .wrongChannelCount ∧
    refusalOf (.unpack []) .idle = some .wrongPayloadSize ∧
    refusalOf (.sendBuffer [] 1) .idle = some .sendLengthBeyondBuffer ∧
    refusalOf (.sendBuffer [] 1) .preamble = some .reentrantTransmit ∧
    refusalOf .tick .idle = none ∧ (stamped 5000).block.sentAny = true ∧
    (stamped 5000).block.lastSend.isSome = true := by decide

theorem witness_HostActivityMayOnlyCallPureOperations :
    decode (callOf 0x50#8) = .ok .tick ∧ transmits .tick = true ∧
    decode (callOf 0x02#8) = .ok (.crc8 [0x16#8, 0x18#8] 2) ∧
    transmits (.crc8 [0x16#8, 0x18#8] 2) = false ∧
    (Instr.crc8 [0x16#8, 0x18#8] 2).wellFormed = true ∧
    decode (callOf 0x10#8) = .ok (.pack [991#16]) ∧ transmits (.pack [991#16]) = false ∧
    (Instr.pack [991#16]).wellFormed = false := by decide

/-- For the last clause of HostActivityMayOnlyCallPureOperations: 0xFF is the selector of no operation. -/
theorem witness_hostReservedSelector : ∀ i : Instr, selector i ≠ (callOf 0xFF#8).sel := by
  intro i
  cases i <;> simp [selector, callOf]

theorem witness_NoHostActivityWhileMasked :
    ({ sending with block.irqMasked := true, hostWork := [[callOf 0x50#8]] } : State).block.irqMasked = true :=
  rfl

/-- For HostWindowRunsTheNextBatch and, masked and not, TransmissionGivesHostItsWindows. -/
theorem witness_hostWork :
    ({ sending with hostWork := [[callOf 0x02#8, callOf 0x50#8], []] } : State).block.irqMasked = false ∧
    ({ ideal with hostWork := [[callOf 0x50#8]] } : State).block.irqMasked = false ∧
    ({ ideal with hostWork := [[callOf 0x50#8]] } : State).block.txState = .idle ∧
    ({ ideal with block := { Block.reset with irqMasked := true }, hostWork := [[callOf 0x50#8]] } :
      State).block.irqMasked = true ∧
    1 ≤ [0x55#8].length := by decide

/-- For TickOfWrappingCounter: open at the interval's last tick, closed one tick before it and one wrap
after the stamp. -/
theorem witness_TickOfWrappingCounter :
    (wrapping 4801000).block.txState = .idle ∧ (wrapping 4801000).cfg.timeWidth = some 23 ∧
    1000 ≤ (wrapping 4801000).now ∧ (wrapping 4801000).block.sentAny = true ∧
    (wrapping 4801000).block.lastSend = some (1000 % 2 ^ 23) ∧
    Config.reference.intervalTicks ≤ (4801000 - 1000) % 2 ^ 23 ∧ 4801000 - 1000 < 2 ^ 23 ∧
    ¬ Config.reference.intervalTicks ≤ (4800999 - 1000) % 2 ^ 23 ∧
    ¬ Config.reference.intervalTicks ≤ (2 ^ 23 + 1000 - 1000) % 2 ^ 23 := by decide

/-- For TickTransmitsWhenGateOpen: the first TICK, the gate one tick short, and the gate just open. -/
theorem witness_TickTransmitsWhenGateOpen :
    ideal.block.sentAny = false ∧ ideal.block.txState = .idle ∧ ideal.cfg.timeWidth = none ∧
    (stamped 0).block.sentAny = true ∧ (stamped 0).block.lastSend = some 1000 ∧
    ¬ ((Config.reference.intervalTicks : Int) ≤ (4800999 : Int) - 1000) ∧
    (Config.reference.intervalTicks : Int) ≤ (4801000 : Int) - 1000 := by decide

theorem witness_TickFramesKeepTheInterval :
    (stamped 4801000).cfg.timeWidth = none ∧ (stamped 4801000).block.txState = .idle ∧
    (stamped 4801000).block.sentAny = true ∧ (stamped 4801000).block.lastSend = some 1000 ∧
    ∃ t es, exec .tick (stamped 4801000) = .next t ∧ t.log = (stamped 4801000).log ++ es ∧
      lineHistory es ≠ [] := by
  obtain ⟨t, h, k⟩ := exists_next (o := exec .tick (stamped 4801000)) (fun t => lineHistory t.log ≠ [])
    (by decide +kernel)
  exact ⟨rfl, rfl, rfl, rfl, t, t.log, h, rfl, k⟩

theorem witness_OnlyTickAndResetWriteTheGate : Instr.buildAndSend (List.replicate 16 0#16) ≠ .tick ∧
    Instr.buildAndSend (List.replicate 16 0#16) ≠ .reset ∧
    ∃ t, exec (.buildAndSend (List.replicate 16 0#16)) (stamped 5000) = .next t ∧ t.ret = .unit :=
  ⟨by decide, by decide, exists_next _ (by decide +kernel)⟩

/-- At the boundary: 2^8 - 1 ticks since the stamp, with a counter of 8 bits that has wrapped. -/
theorem witness_WrappingCounterElapsedIsExact :
    ({ Config.reference with timeWidth := some 8 } : Config).timeWidth = some 8 ∧
    200 ≤ 455 ∧ 455 - 200 < 2 ^ 8 := by decide

/-- The gate unwritten, stamped, and with a stamp that `sent_any` says nothing of. -/
theorem witness_NoStepReadsAnUnwrittenField :
    (State.reset.block.sentAny = true → State.reset.block.lastSend.isSome = true) ∧
    ((stamped 5000).block.sentAny = true → (stamped 5000).block.lastSend.isSome = true) ∧
    ({ Block.reset with lastSend := some 3 }.sentAny = true →
      ({ Block.reset with lastSend := some 3 } : Block).lastSend.isSome = true) := by decide

theorem witness_TransientsCarryNothing :
    ∃ t, exec .tick { ideal with block.cursor := some 3 } = .next t ∧ ∀ r, t.ret ≠ .refused r := by
  obtain ⟨t, h, k⟩ := exists_next (o := exec .tick { ideal with block.cursor := some 3 })
    (fun t => t.ret = .unit) (by decide +kernel)
  exact ⟨t, h, by simp [k]⟩

theorem witness_PureOperationsTouchNothing :
    transmits (.buildFrame (List.replicate 16 991#16)) = false ∧
    (Instr.buildFrame (List.replicate 16 991#16)).wellFormed = true ∧
    ideal.cfg.addr = idealNoPreamble.cfg.addr := by decide

end Sys2Proof.Tests
end

section
/-! Proofs of the scope's statements (00_scope.md): what one step runs. -/

namespace Sys2Proof.Proofs

open Sys2Proof Sys2Proof.Machine

/-- A fetched call that decodes is run, to its end, in the state the fetch leaves (R10, R70). -/
theorem step_of_decode_ok {s t : State} {c : Call} {i : Instr} (hfetch : s.fetch = some (t, c))
    (hdecode : decode c = .ok i) : step s = exec i t := by
  simp only [step, hfetch, hdecode]

/-- Settles O5: the fetch of a non-empty queue answers its first arrival's call, in the state that the
statement writes out, and a step runs what that call decodes to. -/
theorem stepRunsDecodedCall : Obligations.StepRunsDecodedCall := by
  intro s a rest i hcalls hdecode
  exact step_of_decode_ok (fetch_cons hcalls) hdecode

end Sys2Proof.Proofs
end

section
/-! Proofs of the statements of the state (10_state.md): what every step keeps, and that no transient field
carries a value from one operation into the next. -/

namespace Sys2Proof.Proofs

open Sys2Proof Sys2Proof.Machine

/-! ### What a step does, by how it ends -/

/-- Where a step answers a next state, no call was to come and the state was held, or the next call was
refused, or its operation completed (R10, R21, R255). -/
theorem step_next {s t : State} (h : step s = .next t) :
    (s.calls = [] ∧ t = s) ∨
    ∃ a rest, s.calls = a :: rest ∧
      ((∃ r, t = (s.afterFetch a rest).markRefused r) ∨
       ∃ i u r es, t = State.complete r u ∧ (∀ q, r ≠ .refused q) ∧
         Completed i (s.afterFetch a rest) u es) := by
  rcases step_cases s with ⟨hnil, hstep⟩ | ⟨a, rest, hcalls, hrun⟩
  · rw [h] at hstep
    cases hstep
    exact .inl ⟨hnil, rfl⟩
  · refine .inr ⟨a, rest, hcalls, ?_⟩
    rcases hrun with ⟨i, -, hstep⟩ | ⟨r, -, hstep⟩
    · rcases exec_next (hstep.symm.trans h) with ⟨r, -, ht⟩ | ⟨u, r, es, ht, hr, hu⟩
      · exact .inl ⟨r, ht⟩
      · exact .inr ⟨i, u, r, es, ht, hr, hu⟩
    · rw [h] at hstep
      cases hstep
      exact .inl ⟨r, rfl⟩

@[simp] theorem afterFetch_block (s : State) (a : Arrival) (rest : List Arrival) :
    (s.afterFetch a rest).block =
      { s.block with irqMasked := a.hostMask.getD s.block.irqMasked } := rfl
@[simp] theorem afterFetch_cfg (s : State) (a : Arrival) (rest : List Arrival) :
    (s.afterFetch a rest).cfg = s.cfg := rfl
@[simp] theorem afterFetch_log (s : State) (a : Arrival) (rest : List Arrival) :
    (s.afterFetch a rest).log = s.log := rfl

theorem le_afterFetch_now (s : State) (a : Arrival) (rest : List Arrival) :
    s.now ≤ (s.afterFetch a rest).now := le_max_left _ _

/-! ### The state between operations (R32, R35, R39, R40) -/

/-- A completed operation leaves the state between operations: its end clears the transient fields, and
before it the line, `tx_state` and the gate are back where they have to be. -/
theorem complete_betweenOps {i : Instr} {s u : State} {es : List Event} (r : Return)
    (hs : s.block.betweenOps) (hu : Completed i s u es) : (u.complete r).block.betweenOps := by
  obtain ⟨hidle, hlow, -, hgate⟩ := hs
  have hline : u.block.line = .low := hu.line.elim id (·.trans hlow)
  exact ⟨hu.txState.trans hidle, hline, u.block.clearTransients_noTransients, hu.gateWritten hgate⟩

/-- Settles O45, by the three ways a step can end. -/
theorem stepsKeepTheStateBetweenOperations : Obligations.StepsKeepTheStateBetweenOperations := by
  intro s t hs hstep
  rcases step_next hstep with ⟨-, rfl⟩ | ⟨a, rest, -, ⟨r, rfl⟩ | ⟨i, u, r, es, rfl, -, hu⟩⟩
  · exact hs
  · exact hs
  · exact complete_betweenOps r (s := s.afterFetch a rest) hs hu

/-! ### Time, the gate and the configuration (R33, R37, R40) -/

/-- Settles O34: time does not go back at the fetch, and the operation's own events lie in order between
its start and its end. -/
theorem eventTimesNeverDecrease : Obligations.EventTimesNeverDecrease := by
  intro s t hstep
  rcases step_next hstep with ⟨-, rfl⟩ | ⟨a, rest, -, ⟨r, rfl⟩ | ⟨i, u, r, es, rfl, -, hu⟩⟩
  · exact ⟨[], by simp, by simp [timesWithin]⟩
  · exact ⟨[], by simp, decide_eq_true (le_afterFetch_now s a rest)⟩
  · exact ⟨es, hu.log, timesWithin_mono_left hu.times (le_afterFetch_now s a rest)⟩

/-- Settles O41: a refusal writes the mark only, and a completed operation other than TICK and RESET keeps
the gate. -/
theorem onlyTickAndResetWriteTheGate : Obligations.OnlyTickAndResetWriteTheGate := by
  intro i s t htick hreset hexec
  rcases exec_next hexec with ⟨r, -, rfl⟩ | ⟨u, r, es, rfl, -, hu⟩
  · exact ⟨rfl, rfl⟩
  · exact hu.gate htick hreset

/-- Settles O48, by the three ways a step can end. -/
theorem configurationIsReadOnly : Obligations.ConfigurationIsReadOnly := by
  intro s t hstep
  rcases step_next hstep with ⟨-, rfl⟩ | ⟨a, rest, -, ⟨r, rfl⟩ | ⟨i, u, r, es, rfl, -, hu⟩⟩
  · rfl
  · rfl
  · exact hu.cfg

/-- Settles O46: the premise is kept by the fetch, and under it every operation is refused with a next
state or completes. -/
theorem noStepReadsAnUnwrittenField : Obligations.NoStepReadsAnUnwrittenField := by
  intro s hgate
  rcases step_cases s with ⟨-, hstep⟩ | ⟨a, rest, -, ⟨i, -, hstep⟩ | ⟨r, -, hstep⟩⟩
  · exact ⟨_, hstep⟩
  · rw [hstep]
    rcases exec_cases i (s.afterFetch a rest) (fun _ => hgate) with
      ⟨r, -, hexec⟩ | ⟨-, u, r, es, hexec, -⟩
    · exact ⟨_, hexec⟩
    · exact ⟨_, hexec⟩
  · exact ⟨_, hstep⟩

/-! ### The refusal mark (R41) -/

/-- A refusal among host activity's answers is one that `hostWasRefused` sees. -/
theorem hostWasRefused_of_mem {es : List Event} {r : RefuseReason}
    (h : .refused r ∈ hostAnswers es) : hostWasRefused es = true :=
  List.any_eq_true.mpr ⟨_, h, rfl⟩

/-- A completed operation keeps the mark it found. -/
theorem completed_keeps_refused {i : Instr} {s u : State} {es : List Event}
    (hu : Completed i s u es) (h : s.block.refused = true) : u.block.refused = true := by
  rw [hu.refused, h, Bool.true_or]

theorem step_keeps_refused {s t : State} (hstep : step s = .next t) (h : s.block.refused = true) :
    t.block.refused = true := by
  rcases step_next hstep with ⟨-, rfl⟩ | ⟨a, rest, -, ⟨r, rfl⟩ | ⟨i, u, r, es, rfl, -, hu⟩⟩
  · exact h
  · rfl
  · exact completed_keeps_refused (u := u) hu h

theorem exec_refused_marks {i : Instr} {s t : State} {r : RefuseReason} (hexec : exec i s = .next t)
    (hret : t.ret = .refused r) : t.block.refused = true := by
  rcases exec_next hexec with ⟨r', -, rfl⟩ | ⟨u, r', es, rfl, hr', -⟩
  · rfl
  · exact absurd hret (hr' r)

theorem step_refused_marks {s t : State} {r : RefuseReason} (hcalls : s.calls ≠ [])
    (hstep : step s = .next t) (hret : t.ret = .refused r) : t.block.refused = true := by
  rcases step_next hstep with ⟨hnil, -⟩ | ⟨a, rest, -, ⟨r', rfl⟩ | ⟨i, u, r', es, rfl, hr', -⟩⟩
  · exact absurd hnil hcalls
  · rfl
  · exact absurd hret (hr' r)

/-- The one event that a host call adds is its answer, so a refusing answer is in the mark. -/
theorem hostCall_refused_marks {c : Call} {s t : State} {r : RefuseReason} (hcall : hostCall c s = .ok t)
    (hlog : t.log = s.log ++ [.host s.now (.refused r)]) : t.block.refused = true := by
  obtain ⟨u, r', hu, hran, -⟩ := hostCall_ran c s
  obtain rfl : t = u := Except.ok.inj (hcall.symm.trans hu)
  have hevents := List.append_cancel_left (hlog.symm.trans hran.log)
  rw [hran.refused, ← hevents, hostWasRefused_host]
  exact Bool.or_true _

/-- A refused host call inside an operation is still marked when the operation has answered. -/
theorem exec_hostRefusal_marks {i : Instr} {s t : State} {es : List Event} {r : RefuseReason}
    (hexec : exec i s = .next t) (hlog : t.log = s.log ++ es) (hmem : .refused r ∈ hostAnswers es) :
    t.block.refused = true := by
  rcases exec_next hexec with ⟨r', -, rfl⟩ | ⟨u, r', fs, rfl, -, hu⟩
  · rfl
  · obtain rfl : es = fs := List.append_cancel_left (hlog.symm.trans hu.log)
    rw [State.complete_block, Block.clearTransients_refused, hu.refused, hostWasRefused_of_mem hmem]
    exact Bool.or_true _

/-- Settles O47, clause by clause. -/
theorem refusedMarkIsNeverCleared : Obligations.RefusedMarkIsNeverCleared :=
  ⟨fun _ _ => step_keeps_refused, fun _ _ _ _ => exec_refused_marks, fun _ _ _ => step_refused_marks,
    fun _ _ _ _ => hostCall_refused_marks, fun _ _ _ _ _ => exec_hostRefusal_marks⟩

/-! ### States that differ in transient fields only

Two runs from states that differ in the six transient fields only go the same way: every such field that a
procedure reads, the procedure has written before. -/

/-- The state with the transient fields of `b`. -/
def withTransients (b : Block) (s : State) : State := { s with block := s.block.transientsFrom b }

/-- The states differ in transient fields only. -/
def Twin (s s' : State) : Prop := ∃ b, s' = withTransients b s

/-- Inside a character: the two transient fields that a character reads agree as well (R181, R242). -/
def CharTwin (s s' : State) : Prop :=
  ∃ b : Block, b.t0 = s.block.t0 ∧ b.irqSaved = s.block.irqSaved ∧ s' = withTransients b s

/-- The same answer, in states that differ in transient fields only. -/
def AnswerTwin {α : Type} (p q : State × α) : Prop := Twin p.1 q.1 ∧ p.2 = q.2

/-- Two procedures end alike: both complete, with outcomes that `R` relates, or both stop for the same
reason. -/
inductive OpRel {α : Type} (R : α → α → Prop) : Op α → Op α → Prop where
  | ok {a a' : α} : R a a' → OpRel R (.ok a) (.ok a')
  | error (e : Stop) : OpRel R (.error e) (.error e)

/-- Sequences end alike where their parts do. -/
theorem OpRel.bind {α β : Type} {R : α → α → Prop} {Q : β → β → Prop} {x x' : Op α} {f f' : α → Op β}
    (h : OpRel R x x') (k : ∀ a a', R a a' → OpRel Q (f a) (f' a')) :
    OpRel Q (x >>= f) (x' >>= f') := by
  cases h with
  | ok h => exact k _ _ h
  | error e => exact .error e

/-- The same first part, and rests that end alike. -/
theorem OpRel.bind_same {α β : Type} {Q : β → β → Prop} (x : Op α) {f f' : α → Op β}
    (k : ∀ a, OpRel Q (f a) (f' a)) : OpRel Q (x >>= f) (x >>= f') := by
  cases x with
  | ok a => exact k a
  | error e => exact .error e

/-- What a procedure that ends alike answers from the other state. -/
theorem OpRel.exists_ok {α : Type} {R : α → α → Prop} {a : α} {x' : Op α} (h : OpRel R (.ok a) x') :
    ∃ a', x' = .ok a' ∧ R a a' := by
  cases h with
  | ok h => exact ⟨_, rfl, h⟩

/-! ### The updates of the state -/

theorem twin_withTransients (b : Block) (s : State) : Twin s (withTransients b s) := ⟨b, rfl⟩

theorem withTransients_useTickDraw (b : Block) (s : State) :
    (withTransients b s).useTickDraw = withTransients b s.useTickDraw := by
  obtain ⟨block, cfg, now, log, ret, calls, work, times, snaps, draws⟩ := s
  cases times <;> rfl

theorem withTransients_useSnapDraw (b : Block) (s : State) :
    (withTransients b s).useSnapDraw = withTransients b s.useSnapDraw := by
  obtain ⟨block, cfg, now, log, ret, calls, work, times, snaps, draws⟩ := s
  cases snaps <;> rfl

theorem withTransients_elapse (b : Block) (s : State) :
    (withTransients b s).elapse = withTransients b s.elapse := by
  simp only [State.elapse, withTransients_useTickDraw]; rfl

theorem withTransients_elapseUpTo (b : Block) (n : Nat) (s : State) :
    (withTransients b s).elapseUpTo n = withTransients b (s.elapseUpTo n) := by
  simp only [State.elapseUpTo, withTransients_useTickDraw]; rfl

theorem withTransients_waitUntil (b : Block) (t : Nat) (s : State) :
    (withTransients b s).waitUntil t = withTransients b (s.waitUntil t) := by
  simp only [State.waitUntil, withTransients_useTickDraw]; rfl

theorem withTransients_waitInCharacter (b : Block) (t : Nat) (s : State) :
    (withTransients b s).waitInCharacter t = withTransients b (s.waitInCharacter t) := by
  simp only [State.waitInCharacter, withTransients_useTickDraw]; rfl

theorem withTransients_driveUnmasked (b : Block) (l : Level) (s : State) :
    (withTransients b s).driveUnmasked l = withTransients b (s.driveUnmasked l) := by
  simp only [State.driveUnmasked, withTransients_elapse]; rfl

theorem withTransients_enterCritical (b : Block) (s : State) : (withTransients b s).enterCritical =
    withTransients { b with irqSaved := some s.block.irqMasked } s.enterCritical := rfl

theorem withTransients_setT0 (b : Block) (t : Nat) (s : State) :
    (withTransients b s).setT0 t = withTransients { b with t0 := some t } (s.setT0 t) := rfl

theorem withTransients_preambleLoop (b : Block) (ls : List Level) (s : State) :
    preambleLoop ls (withTransients b s) = withTransients b (preambleLoop ls s) := by
  induction ls generalizing s with
  | nil => rfl
  | cons l ls ih =>
    simp only [preambleLoop, State.readTime, withTransients_driveUnmasked, withTransients_elapse]
    exact (congrArg _ (withTransients_waitUntil b _ _)).trans (ih _)

theorem withTransients_runPreamble (b : Block) (s : State) :
    runPreamble (withTransients b s) = withTransients b (runPreamble s) := by
  have hgap : ∀ u : State, (withTransients b u).readTime.waitUntil
      ((withTransients b u).readTime.now + (withTransients b u).readTime.cfg.gapTicks) =
      withTransients b (u.readTime.waitUntil (u.readTime.now + u.readTime.cfg.gapTicks)) := fun u => by
    simp only [State.readTime, withTransients_elapse]
    exact withTransients_waitUntil b _ _
  have hcfg : (withTransients b s).cfg = s.cfg := rfl
  unfold runPreamble
  rw [hcfg]
  cases s.cfg.preambleEnable
  · exact hgap s
  · simp only [if_true, withTransients_preambleLoop]
    exact hgap _

/-! ### The pure operations and host activity -/

theorem crc8_twin (buf : List Byte) (n : Nat) {s s' : State} (h : Twin s s') :
    OpRel AnswerTwin (opCrc8 buf n s) (opCrc8 buf n s') := by
  obtain ⟨b, rfl⟩ := h
  rcases Nat.lt_or_ge buf.length n with hn | hn
  · simp only [opCrc8, runCrc8_of_lt hn]
    exact .error _
  · rw [opCrc8_of_le hn, opCrc8_of_le hn]
    exact .ok ⟨⟨{ b with crcAcc := _ }, rfl⟩, rfl⟩

theorem pack_twin (values : List Half) {s s' : State} (h : Twin s s') :
    OpRel AnswerTwin (opPack values s) (opPack values s') := by
  obtain ⟨b, rfl⟩ := h
  by_cases hn : values.length = numChannels
  · rw [opPack_of_length hn, opPack_of_length hn]
    exact .ok ⟨⟨{ b with cursor := _ }, rfl⟩, rfl⟩
  · simp only [opPack, runPack_of_ne hn]
    exact .error _

theorem unpack_twin (payload : List Byte) {s s' : State} (h : Twin s s') :
    OpRel AnswerTwin (opUnpack payload s) (opUnpack payload s') := by
  unfold opUnpack
  split
  · exact .error _
  · exact .ok ⟨h, rfl⟩

theorem runBuildFrame_twin (snap : List Half) {s s' : State} (h : Twin s s') :
    OpRel AnswerTwin (runBuildFrame snap s) (runBuildFrame snap s') := by
  obtain ⟨b, rfl⟩ := h
  by_cases hn : snap.length = numChannels
  · rw [runBuildFrame_of_length hn, runBuildFrame_of_length hn]
    exact .ok ⟨⟨{ b with snap := _, cursor := _, crcAcc := _, frame := _ }, rfl⟩, rfl⟩
  · rw [runBuildFrame_of_ne hn, runBuildFrame_of_ne hn]
    exact .error _

theorem buildFrame_twin (snap : List Half) {s s' : State} (h : Twin s s') :
    OpRel AnswerTwin (opBuildFrame snap s) (opBuildFrame snap s') :=
  (runBuildFrame_twin snap h).bind fun _ _ ⟨ht, hf⟩ => .ok ⟨ht, congrArg Return.bytes hf⟩

theorem hostRefused_twin (r : RefuseReason) {s s' : State} (h : Twin s s') :
    Twin (s.hostRefused r) (s'.hostRefused r) := by
  obtain ⟨b, rfl⟩ := h
  exact ⟨b, rfl⟩

theorem concludeHost_twin {s s' : State} {o o' : Op (State × Return)} (h : Twin s s')
    (ho : OpRel AnswerTwin o o') : OpRel Twin (concludeHost s o) (concludeHost s' o') := by
  cases ho with
  | ok ho =>
    next p q =>
      obtain ⟨t, r⟩ := p
      obtain ⟨t', r'⟩ := q
      obtain ⟨⟨c, rfl⟩, rfl⟩ := ho
      obtain ⟨b, rfl⟩ := h
      exact .ok ⟨b, rfl⟩
  | error e =>
    cases e with
    | refuse r => exact .ok (hostRefused_twin r h)
    | fault f => exact .error _

theorem hostCall_twin (c : Call) {s s' : State} (h : Twin s s') :
    OpRel Twin (hostCall c s) (hostCall c s') := by
  unfold hostCall
  split
  · exact .ok (hostRefused_twin _ h)
  · exact concludeHost_twin h (.ok ⟨h, rfl⟩)
  · exact concludeHost_twin h (crc8_twin _ _ h)
  · exact concludeHost_twin h (pack_twin _ h)
  · exact concludeHost_twin h (unpack_twin _ h)
  · exact concludeHost_twin h (buildFrame_twin _ h)
  all_goals exact .ok (hostRefused_twin _ h)

theorem hostCalls_twin (cs : List Call) {s s' : State} (h : Twin s s') :
    OpRel Twin (hostCalls cs s) (hostCalls cs s') := by
  induction cs generalizing s s' with
  | nil => exact .ok h
  | cons c rest ih => exact (hostCall_twin c h).bind fun _ _ => ih

theorem hostWindow_twin {s s' : State} (h : Twin s s') : OpRel Twin (hostWindow s) (hostWindow s') := by
  obtain ⟨b, rfl⟩ := h
  have hmask : (withTransients b s.elapse).block.irqMasked = s.elapse.block.irqMasked := rfl
  have hwork : (withTransients b s.elapse).hostWork = s.elapse.hostWork := rfl
  simp only [hostWindow, withTransients_elapse, hmask, hwork]
  split
  · exact .ok ⟨b, rfl⟩
  · split
    · exact .ok ⟨b, rfl⟩
    · exact hostCalls_twin _ ⟨b, rfl⟩

/-! ### Transmissions -/

/-- The slots read `t0` and no other transient field. -/
theorem slotLoop_twin (byte : Byte) (ks : List Nat) {s s' : State} (h : CharTwin s s') :
    OpRel CharTwin (slotLoop byte ks s) (slotLoop byte ks s') := by
  induction ks generalizing s s' with
  | nil => exact .ok h
  | cons k ks ih =>
    obtain ⟨b, ht0, hsaved, rfl⟩ := h
    have hread : (withTransients b s).block.t0 = s.block.t0 := ht0
    simp only [slotLoop, State.drive_block, hread]
    refine .bind_same _ fun t0 => ih ⟨b, ?_, ?_, withTransients_waitInCharacter b _ (s.drive _)⟩
    · simpa using ht0
    · simpa using hsaved

/-- The end of a character reads `irq_saved`, which the start of the character has written. -/
theorem exitCritical_twin {s s' : State} (h : CharTwin s s') :
    OpRel Twin s.exitCritical s'.exitCritical := by
  obtain ⟨b, -, hsaved, rfl⟩ := h
  have hread : (withTransients b s).block.irqSaved = s.block.irqSaved := hsaved
  simp only [State.exitCritical, hread]
  exact .bind_same _ fun m => .ok ⟨{ b with irqSaved := s.block.irqSaved }, rfl⟩

/-- A character writes `irq_saved` and `t0` before it reads them. -/
theorem runTxByte_twin (byte : Byte) {s s' : State} (h : Twin s s') :
    OpRel Twin (runTxByte byte s) (runTxByte byte s') := by
  obtain ⟨b, rfl⟩ := h
  have hstart : CharTwin
      ((s.readTime.enterCritical.setT0 s.readTime.now).elapseUpTo s.readTime.cfg.edgeSlack)
      (((withTransients b s).readTime.enterCritical.setT0 (withTransients b s).readTime.now).elapseUpTo
        (withTransients b s).readTime.cfg.edgeSlack) := by
    simp only [State.readTime, withTransients_elapse, withTransients_enterCritical,
      withTransients_setT0]
    exact ⟨_, by simp [withTransients], by simp, withTransients_elapseUpTo _ _ _⟩
  exact (slotLoop_twin byte _ hstart).bind fun _ _ => exitCritical_twin

theorem sendChars_twin (bytes : List Byte) (i : Nat) {s s' : State} (h : Twin s s') :
    OpRel Twin (sendChars i bytes s) (sendChars i bytes s') := by
  induction bytes generalizing i s s' with
  | nil => exact .ok h
  | cons byte rest ih =>
    obtain ⟨b, rfl⟩ := h
    have hstart : Twin (s.setTx (.byte i)) ((withTransients b s).setTx (.byte i)) := ⟨b, rfl⟩
    exact (runTxByte_twin byte hstart).bind fun _ _ hsent =>
      (hostWindow_twin hsent).bind fun _ _ => ih (i + 1)

theorem requireIdle_twin {s s' : State} (h : Twin s s') : s'.requireIdle = s.requireIdle := by
  obtain ⟨b, rfl⟩ := h
  rfl

theorem runSendBuffer_twin (buf : List Byte) (n : Nat) {s s' : State} (h : Twin s s') :
    OpRel Twin (runSendBuffer buf n s) (runSendBuffer buf n s') := by
  unfold runSendBuffer
  rw [requireIdle_twin h]
  refine .bind_same _ fun _ => ?_
  split
  · exact .error _
  · obtain ⟨b, rfl⟩ := h
    have hpre : Twin (runPreamble (s.setTx .preamble))
        (runPreamble ((withTransients b s).setTx .preamble)) :=
      ⟨b, withTransients_runPreamble b (s.setTx .preamble)⟩
    refine (hostWindow_twin hpre).bind fun _ _ hwin => (sendChars_twin _ 0 hwin).bind ?_
    rintro u _ ⟨c, rfl⟩
    exact .ok ⟨c, congrArg (State.setTx .idle) (withTransients_driveUnmasked c .low u)⟩

theorem runBuildAndSend_twin (snap : List Half) {s s' : State} (h : Twin s s') :
    OpRel Twin (runBuildAndSend snap s) (runBuildAndSend snap s') := by
  unfold runBuildAndSend
  rw [requireIdle_twin h]
  refine .bind_same _ fun _ => (runBuildFrame_twin snap h).bind ?_
  rintro ⟨t, frame⟩ ⟨t', _⟩ ⟨ht, rfl⟩
  exact runSendBuffer_twin frame _ ht

theorem runTickSend_twin {s s' : State} (h : Twin s s') :
    OpRel Twin (runTickSend s) (runTickSend s') := by
  obtain ⟨b, rfl⟩ := h
  have hsnap : Twin (s.useSnapDraw.setSnap s.snapDraw)
      ((withTransients b s).useSnapDraw.setSnap (withTransients b s).snapDraw) := by
    rw [withTransients_useSnapDraw]
    exact ⟨{ b with snap := _ }, rfl⟩
  refine .bind_same (.ok s.snapDraw) fun snap => (runBuildAndSend_twin snap hsnap).bind ?_
  rintro u _ ⟨c, rfl⟩
  refine .ok ⟨c, ?_⟩
  simp only [State.readTime, withTransients_elapse]
  rfl

/-! ### All operations -/

/-- An operation that completes without a result. -/
theorem unit_twin {x x' : Op State} (h : OpRel Twin x x') :
    OpRel AnswerTwin (x >>= fun s => pure (s, Return.unit)) (x' >>= fun s => pure (s, Return.unit)) :=
  h.bind fun _ _ hs => .ok ⟨hs, rfl⟩

theorem tick_twin {s s' : State} (h : Twin s s') : OpRel AnswerTwin (opTick s) (opTick s') := by
  unfold opTick
  rw [requireIdle_twin h]
  refine .bind_same _ fun _ => ?_
  obtain ⟨b, rfl⟩ := h
  simp only [State.readTime, withTransients_elapse]
  refine .bind_same (s.elapse.gateOpen (counterAt s.elapse.cfg s.elapse.now)) fun isOpen => ?_
  cases isOpen
  · exact .ok ⟨⟨b, rfl⟩, rfl⟩
  · exact unit_twin (runTickSend_twin ⟨b, rfl⟩)

theorem reset_twin {s s' : State} (h : Twin s s') : OpRel AnswerTwin (opReset s) (opReset s') := by
  unfold opReset
  rw [requireIdle_twin h]
  obtain ⟨b, rfl⟩ := h
  simp only [withTransients_driveUnmasked]
  exact .bind_same _ fun _ => .ok ⟨⟨b, rfl⟩, rfl⟩

/-- The procedure that an operation runs, before its end is taken (R104). -/
def procedureOf : Instr → State → Op (State × Return)
  | .crc8Byte acc b => opCrc8Byte acc b
  | .crc8 buf length => opCrc8 buf length
  | .pack values => opPack values
  | .unpack payload => opUnpack payload
  | .buildFrame snap => opBuildFrame snap
  | .txPreamble => opTxPreamble
  | .txByte b => opTxByte b
  | .sendBuffer buf n => opSendBuffer buf n
  | .buildAndSend snap => opBuildAndSend snap
  | .tick => opTick
  | .reset => opReset

theorem exec_eq_conclude (i : Instr) (s : State) : exec i s = conclude s (procedureOf i s) := by
  cases i <;> rfl

theorem procedureOf_twin (i : Instr) {s s' : State} (h : Twin s s') :
    OpRel AnswerTwin (procedureOf i s) (procedureOf i s') := by
  cases i with
  | crc8Byte acc byte => exact .ok ⟨h, rfl⟩
  | crc8 buf length => exact crc8_twin buf length h
  | pack values => exact pack_twin values h
  | unpack payload => exact unpack_twin payload h
  | buildFrame snap => exact buildFrame_twin snap h
  | txPreamble =>
    simp only [procedureOf, opTxPreamble, requireIdle_twin h]
    obtain ⟨b, rfl⟩ := h
    exact .bind_same _ fun _ => .ok ⟨⟨b, withTransients_runPreamble b s⟩, rfl⟩
  | txByte byte =>
    simp only [procedureOf, opTxByte, requireIdle_twin h]
    exact .bind_same _ fun _ => unit_twin (runTxByte_twin byte h)
  | sendBuffer buf n => exact unit_twin (runSendBuffer_twin buf n h)
  | buildAndSend snap => exact unit_twin (runBuildAndSend_twin snap h)
  | tick => exact tick_twin h
  | reset => exact reset_twin h

/-- The end of an operation clears what the two states differ in. -/
theorem Twin.complete_eq {s s' : State} (h : Twin s s') (r : Return) : s'.complete r = s.complete r := by
  obtain ⟨b, rfl⟩ := h
  rfl

/-- Settles O49: the end of an operation clears the transient fields, and from any other transient values
the procedure ends alike. -/
theorem transientsCarryNothing : Obligations.TransientsCarryNothing := by
  intro i s t b hexec hret
  rw [exec_eq_conclude] at hexec
  rcases conclude_next hexec with ⟨u, r, hu, rfl⟩ | ⟨r, -, rfl⟩
  · refine ⟨u.block.clearTransients_noTransients, ?_⟩
    have htwin := procedureOf_twin i (twin_withTransients b s)
    rw [hu] at htwin
    obtain ⟨⟨u', _⟩, hu', hstate, rfl⟩ := htwin.exists_ok
    calc exec i (withTransients b s)
        = conclude (withTransients b s) (procedureOf i (withTransients b s)) := exec_eq_conclude ..
      _ = .next (u'.complete r) := by rw [hu', conclude_ok]
      _ = .next (u.complete r) := by rw [hstate.complete_eq]
  · exact absurd rfl (hret r)

/-! ### RESET and the state after reset (R47, R260) -/

/-- Settles O43: the one time that passes comes before the drive, and the end clears the transient
fields. -/
theorem resetGivesTheTableValues : Obligations.ResetGivesTheTableValues := by
  intro s hidle
  obtain ⟨t, hexec, hran, hblock, hnow, hwork, hsnap⟩ := exec_reset hidle
  refine ⟨t.complete .unit, s.elapse.now, hexec, (ran_elapse s).now_le, hnow.ge, hran.log, ?_, hran.cfg,
    rfl, hran.calls, hwork, hsnap⟩
  rw [State.complete_block, hblock]
  rfl

/-- Settles O44: the state after reset is written out field by field, and 240 MHz is enough for BAUD. -/
theorem resetStateIsBetweenOperations : Obligations.ResetStateIsBetweenOperations := by
  have hbetween : State.reset.block.betweenOps := ⟨rfl, rfl, ⟨rfl, rfl, rfl, rfl, rfl, rfl⟩, rfl⟩
  have hwf : State.reset.cfg.wf := ⟨by decide, by decide⟩
  exact ⟨rfl, rfl, hbetween, rfl, hwf⟩

end Sys2Proof.Proofs
end

section
/-! Proofs of the statements of the encoding (30_encoding.md): the selector of a call, the payload's bit stream
and the layout of a frame. -/

namespace Sys2Proof.Proofs

open Sys2Proof Sys2Proof.Machine

/-! ### The selector (R98, R99, R104) -/

/-- Settles O1, row by row of the table. -/
theorem tableSelectorsDecode : Obligations.TableSelectorsDecode :=
  fun _ => ⟨rfl, rfl, rfl, rfl, rfl, rfl, rfl, rfl, rfl, rfl, rfl⟩

/-- Settles O2, by the law of each operation. -/
theorem encodedOperationsDecodeBack : Obligations.EncodedOperationsDecodeBack := by
  intro i
  cases i with
  | crc8Byte acc b => exact Laws.DecodeEncode.crc8Byte acc b
  | crc8 buf length => exact Laws.DecodeEncode.crc8 buf length
  | pack values => exact Laws.DecodeEncode.pack values
  | unpack payload => exact Laws.DecodeEncode.unpack payload
  | buildFrame snap => exact Laws.DecodeEncode.buildFrame snap
  | txPreamble => exact Laws.DecodeEncode.txPreamble
  | txByte b => exact Laws.DecodeEncode.txByte b
  | sendBuffer buf n => exact Laws.DecodeEncode.sendBuffer buf n
  | buildAndSend snap => exact Laws.DecodeEncode.buildAndSend snap
  | tick => exact Laws.DecodeEncode.tick
  | reset => exact Laws.DecodeEncode.reset

/-- All that the decoder can do: it answers an operation of the call's own selector byte, or refuses the
selector as reserved (R98, R99). -/
theorem decode_cases (c : Call) :
    (∃ i, decode c = .ok i ∧ selector i = c.sel) ∨ decode c = .error .reservedSelector := by
  unfold decode
  split
  case h_12 => exact .inr rfl
  all_goals next hsel => exact .inl ⟨_, rfl, BitVec.eq_of_toNat_eq hsel.symm⟩

/-- A call with the selector of an operation decodes to that row's operation, whatever its operands are
(R98, R104). -/
theorem decode_of_sel {c : Call} {i : Instr} (h : selector i = c.sel) :
    ∃ j, decode c = .ok j ∧ selector j = selector i := by
  obtain ⟨sel, args⟩ := c
  obtain rfl : selector i = sel := h
  cases i <;> exact ⟨_, rfl, rfl⟩

/-- Settles O3: the decoder answers or refuses, and it never refuses a selector of the table. -/
theorem decodeReadsWholeSelector : Obligations.DecodeReadsWholeSelector := by
  intro c
  rcases decode_cases c with ⟨i, hdecode, hsel⟩ | hdecode
  · exact .inl ⟨i, hdecode, hsel, fun d hd => decode_of_sel (hsel.trans hd.symm)⟩
  · refine .inr ⟨hdecode, fun i hsel => ?_⟩
    obtain ⟨j, hok, -⟩ := decode_of_sel hsel
    rw [hdecode] at hok
    cases hok

/-- The selectors of the operations are the table's (R104). -/
theorem selector_mem_table (i : Instr) : selector i ∈
    [0x01#8, 0x02#8, 0x10#8, 0x11#8, 0x20#8, 0x30#8, 0x31#8, 0x32#8, 0x40#8, 0x50#8, 0x60#8] := by
  cases i <;> simp [selector]

/-- A fetched call that does not decode is refused in the state the fetch leaves (R99). -/
theorem step_of_decode_error {s t : State} {c : Call} {r : RefuseReason}
    (hfetch : s.fetch = some (t, c)) (hdecode : decode c = .error r) :
    step s = .next (refusedFrom t r) := by
  simp only [step, hfetch, hdecode]
  rfl

/-- Settles O4: a call that decoded would have a selector of the table. -/
theorem reservedSelectorIsRefused : Obligations.ReservedSelectorIsRefused := by
  intro s t c hfetch hreserved
  rcases decode_cases c with ⟨i, -, hsel⟩ | hdecode
  · exact absurd (hsel ▸ selector_mem_table i) hreserved
  · exact step_of_decode_error hfetch hdecode

/-! ### The pure operations with operands of the right shape -/

theorem exec_crc8 {buf : List Byte} {length : Nat} (s : State) (h : length ≤ buf.length) :
    exec (.crc8 buf length) s = .next (completedFrom s (.byte (crcOf (buf.take length)))) := by
  simp only [exec, execCrc8, opCrc8_of_le h, conclude_ok]
  rfl

theorem exec_pack {values : List Half} (s : State) (h : values.length = numChannels) :
    exec (.pack values) s = .next (completedFrom s (.bytes (packOf values))) := by
  simp only [exec, execPack, opPack_of_length h, conclude_ok]
  rfl

theorem exec_unpack {payload : List Byte} (s : State) (h : payload.length = payloadSize) :
    exec (.unpack payload) s = .next (completedFrom s (.halves (unpackOf payload))) := by
  simp only [exec, execUnpack, opUnpack_of_length h, conclude_ok]
  rfl

/-! ### The parts of a frame (R80) -/

/-- The bytes of a frame after its address, which do not depend on the configuration (R81). -/
def frameTail (snap : List Half) : List Byte :=
  frameLen :: frameType :: (packOf snap ++ [crcOf (frameType :: packOf snap)])

theorem frameOf_eq_cons (c : Config) (snap : List Half) : frameOf c snap = c.addr :: frameTail snap := rfl

/-- Frame bytes 3 to 24 are the payload (R84). -/
theorem frameOf_getElem?_payload (c : Config) (snap : List Half) {k : Nat} (hk : k < 22) :
    (frameOf c snap)[3 + k]? = (packOf snap)[k]? := by
  have hlt : k < (packOf snap).length := by rwa [packOf_length]
  rw [frameOf_eq_cons, frameTail, Nat.add_comm 3 k]
  exact List.getElem?_append_left hlt

/-- Frame byte 25 is the checksum (R85). -/
theorem frameOf_getElem?_crc (c : Config) (snap : List Half) :
    (frameOf c snap)[25]? = some (crcOf (frameType :: packOf snap)) := by
  have hlast : (packOf snap ++ [crcOf (frameType :: packOf snap)])[22]? =
      some (crcOf (frameType :: packOf snap)) := by
    rw [List.getElem?_append_right (by simp), packOf_length]
    rfl
  exact hlast

/-- The 23 bytes that the checksum covers are the type byte and the payload (R85). -/
theorem frameOf_covered (c : Config) (snap : List Half) :
    ((frameOf c snap).drop 2).take 23 = frameType :: packOf snap := by
  have hcovered : (frameType :: packOf snap).length = 23 := by simp
  exact hcovered ▸ List.take_left

/-- Settles O20: the checksum of the covered bytes is the one that stands in byte 25. -/
theorem frameHasTheSpecifiedLayout : Obligations.FrameHasTheSpecifiedLayout := by
  intro snap s hlen
  have hcrc : exec (.crc8 (frameType :: packOf snap) 23) s =
      .next (completedFrom s (.byte (crcOf (frameType :: packOf snap)))) := by
    rw [exec_crc8 s (by simp), List.take_of_length_le (by simp)]
  refine ⟨frameOf s.cfg snap, packOf snap, crcOf (frameType :: packOf snap), exec_buildFrame s hlen,
    exec_pack s hlen, ?_, frameOf_length _ _, rfl, rfl, rfl, fun k => frameOf_getElem?_payload _ _,
    packOf_length _, frameOf_getElem?_crc _ _⟩
  rw [frameOf_covered]
  exact hcrc

/-- Settles O22: a frame is the address and a tail that the snapshot alone gives. -/
theorem frameTailIgnoresTheAddress : Obligations.FrameTailIgnoresTheAddress := by
  intro snap s s' hlen
  refine ⟨_, _, exec_buildFrame s hlen, exec_buildFrame s' hlen, rfl, ?_⟩
  rw [frameOf_eq_cons, frameOf_eq_cons, List.cons.injEq, and_iff_left rfl]

/-! ### The bits of a channel (R86, R87) -/

/-- Bit `j` of channel `i` is stream bit `11 * i + j` of the packed payload (R86). -/
theorem streamBit_packOf_channel {values : List Half} (hlen : values.length = 16) {i j : Nat}
    (hi : i < 16) (hj : j < 11) :
    streamBit (packOf values) (11 * i + j) = (values.getD i 0#16).getLsbD j := by
  have hchannel : (11 * i + j) / 11 = i := by omega
  have hbit : (11 * i + j) % 11 = j := by omega
  rw [streamBit_packOf hlen (by omega), hchannel, hbit]

/-- Settles O14: the frame holds the payload's bytes from byte 3 on. -/
theorem packPlacesEveryChannelBit : Obligations.PackPlacesEveryChannelBit := by
  intro values s hlen
  refine ⟨packOf values, frameOf s.cfg values, exec_pack s hlen, packOf_length values,
    exec_buildFrame s hlen, fun i j hi hj => ?_⟩
  have hpacked := streamBit_packOf_channel hlen hi hj
  have hbyte : (11 * i + j) / 8 < 22 := by omega
  refine ⟨hpacked, ?_⟩
  rw [List.getD_eq_getElem?_getD, frameOf_getElem?_payload _ _ hbyte, ← List.getD_eq_getElem?_getD]
  exact hpacked

/-- A stream bit as a number: its byte shifted down and masked (R64). -/
theorem streamBit_toNat (payload : List Byte) (p : Nat) :
    (streamBit payload p).toNat = ((payload.getD (p / 8) 0#8).toNat >>> (p % 8)) &&& 1 := by
  rw [streamBit, ← BitVec.testBit_toNat, Nat.toNat_testBit, Nat.and_one_is_mod,
    Nat.shiftRight_eq_div_pow]

/-- The low `n` bits of a number, each at its own weight, add up to it modulo `2 ^ n`. -/
theorem sum_testBit_shiftLeft (x n : Nat) :
    ∑ j ∈ Finset.range n, (x.testBit j).toNat <<< j = x % 2 ^ n := by
  induction n with
  | zero => simp [Nat.mod_one]
  | succ n ih =>
    rw [Finset.sum_range_succ, ih, Nat.mod_pow_succ, Nat.toNat_testBit, Nat.shiftLeft_eq, Nat.mul_comm]

/-- A channel field is an 11-bit quantity (R87). -/
theorem channelField_lt (payload : List Byte) (i : Nat) : (channelField payload i).toNat < 2 ^ 11 := by
  refine Nat.lt_pow_two_of_testBit _ fun m hm => ?_
  rw [BitVec.testBit_toNat, channelField_getLsbD, decide_eq_false hm.not_gt, Bool.false_and]

/-- A channel field is the sum of its stream bits, each at its own weight (R87). -/
theorem channelField_toNat (payload : List Byte) (i : Nat) :
    (channelField payload i).toNat =
      ∑ j ∈ Finset.range 11, (streamBit payload (11 * i + j)).toNat <<< j := by
  rw [← Nat.mod_eq_of_lt (channelField_lt payload i), ← sum_testBit_shiftLeft]
  refine Finset.sum_congr rfl fun j hj => ?_
  rw [BitVec.testBit_toNat, channelField_getLsbD, decide_eq_true (Finset.mem_range.mp hj), Bool.true_and]

theorem unpackOf_getD (payload : List Byte) {i : Nat} (hi : i < 16) :
    (unpackOf payload).getD i 0#16 = channelField payload i := by
  simp [unpackOf, numChannels, hi]

/-- Settles O15: the fields of UNPACK's answer are the sums of their stream bits. -/
theorem unpackSumsTheFieldBits : Obligations.UnpackSumsTheFieldBits := by
  intro payload s hlen
  refine ⟨unpackOf payload, exec_unpack s hlen, unpackOf_length payload, fun i hi => ?_⟩
  rw [unpackOf_getD payload hi, channelField_toNat]
  exact Finset.sum_congr rfl fun j _ => by rw [streamBit_toNat]

end Sys2Proof.Proofs
end

section
/-! Proofs of the statements of the Checksum Engine (40_checksum.md): the byte step as a linear bijection over
GF(2), and CRC8 as its fold and as a polynomial remainder. -/

namespace Sys2Proof.Proofs

open Sys2Proof Sys2Proof.Machine
open Polynomial

/-! ### The bit step (R120) -/

/-- The bit step without its case split: what is XORed in is the polynomial or 0. -/
theorem crcShift_eq_xor (a : Byte) :
    crcShift a = (a <<< 1) ^^^ (if a.msb then crcPoly else 0#8) := by
  unfold crcShift
  split <;> simp

theorem crcShift_xor (a b : Byte) : crcShift (a ^^^ b) = crcShift a ^^^ crcShift b := by
  have hmask : (if (a ^^^ b).msb then crcPoly else 0#8) =
      (if a.msb then crcPoly else 0#8) ^^^ (if b.msb then crcPoly else 0#8) := by
    rw [BitVec.msb_xor]
    cases a.msb <;> cases b.msb <;> rfl
  rw [crcShift_eq_xor, crcShift_eq_xor a, crcShift_eq_xor b, hmask, BitVec.shiftLeft_xor_distrib]
  ac_rfl

/-- The bit that leaves a byte at the top comes in at the bottom, since the polynomial is odd. -/
theorem crcShift_getLsbD_zero (a : Byte) : (crcShift a).getLsbD 0 = a.msb := by
  rw [crcShift_eq_xor]
  cases a.msb <;> simp [crcPoly]

theorem shiftLeft_one_getLsbD_succ (a : Byte) {i : Nat} (hi : i < 7) :
    (a <<< 1).getLsbD (i + 1) = a.getLsbD i := by
  have hlt : i + 1 < 8 := by omega
  simp [hlt, BitVec.getLsbD_eq_getElem (Nat.lt_of_succ_lt hlt)]

/-- The bit step loses nothing: its lowest bit tells whether the polynomial was XORed in. -/
theorem crcShift_injective : Function.Injective crcShift := by
  intro a b h
  have hmsb : a.msb = b.msb := by rw [← crcShift_getLsbD_zero, h, crcShift_getLsbD_zero]
  have hshift : a <<< 1 = b <<< 1 := by
    rw [crcShift_eq_xor, crcShift_eq_xor, hmsb] at h
    exact (BitVec.xor_left_inj _).mp h
  refine BitVec.eq_of_getLsbD_eq fun i hi => ?_
  rcases Nat.lt_succ_iff_lt_or_eq.mp hi with hlow | rfl
  · rw [← shiftLeft_one_getLsbD_succ a hlow, hshift, shiftLeft_one_getLsbD_succ b hlow]
  · exact hmsb

theorem crcShifts_eq_iterate (n : Nat) (a : Byte) : crcShifts n a = crcShift^[n] a := by
  induction n generalizing a with
  | zero => rfl
  | succ n ih => exact ih (crcShift a)

/-! ### The byte step (R120) -/

theorem crcByte_eq_iterate (acc b : Byte) : crcByte acc b = crcShift^[8] (acc ^^^ b) :=
  crcShifts_eq_iterate 8 _

theorem crcByte_comm (acc b : Byte) : crcByte acc b = crcByte b acc := by
  rw [crcByte, crcByte, BitVec.xor_comm]

theorem crcByte_self (a : Byte) : crcByte a a = 0#8 := by
  rw [crcByte, BitVec.xor_self]
  rfl

/-- The byte step is linear in both of its operands together. -/
theorem crcByte_xor (a a' b b' : Byte) :
    crcByte (a ^^^ a') (b ^^^ b') = crcByte a b ^^^ crcByte a' b' := by
  have hswap : (a ^^^ a') ^^^ (b ^^^ b') = (a ^^^ b) ^^^ (a' ^^^ b') := by ac_rfl
  have hlinear : Function.Semiconj₂ crcShift (· ^^^ ·) (· ^^^ ·) := crcShift_xor
  rw [crcByte_eq_iterate, crcByte_eq_iterate a, crcByte_eq_iterate a', hswap]
  exact hlinear.iterate 8 _ _

theorem crcByte_injective_right (acc : Byte) : Function.Injective (crcByte acc) := by
  intro b b' h
  rw [crcByte_eq_iterate, crcByte_eq_iterate] at h
  exact (BitVec.xor_right_inj acc).mp (crcShift_injective.iterate 8 h)

theorem crcByte_injective_left (b : Byte) : Function.Injective fun acc => crcByte acc b := by
  intro acc acc' h
  refine crcByte_injective_right b ?_
  rw [crcByte_comm b, crcByte_comm b]
  exact h

/-! ### CRC8 as a fold (R121) -/

theorem crcOf_concat (bytes : List Byte) (b : Byte) : crcOf (bytes ++ [b]) = crcByte (crcOf bytes) b := by
  simp [crcOf]

/-- The fold from the XOR of two accumulators over the XOR of two buffers (R123(a)). -/
theorem foldl_crcByte_zipWith_xor :
    ∀ (x y : List Byte) (a b : Byte), x.length = y.length →
      (List.zipWith (· ^^^ ·) x y).foldl crcByte (a ^^^ b) = x.foldl crcByte a ^^^ y.foldl crcByte b
  | [], [], _, _, _ => rfl
  | p :: x, q :: y, a, b, h => by
    rw [List.zipWith_cons_cons, List.foldl_cons, crcByte_xor]
    exact foldl_crcByte_zipWith_xor x y _ _ (Nat.succ.inj h)

theorem crcOf_zipWith_xor {x y : List Byte} (h : x.length = y.length) :
    crcOf (List.zipWith (· ^^^ ·) x y) = crcOf x ^^^ crcOf y :=
  foldl_crcByte_zipWith_xor x y 0#8 0#8 h

/-- Different accumulators stay different over any bytes. -/
theorem foldl_crcByte_injective (bytes : List Byte) :
    Function.Injective fun acc => bytes.foldl crcByte acc := by
  induction bytes with
  | nil => exact Function.injective_id
  | cons b rest ih => exact ih.comp (crcByte_injective_left b)

/-- The CRC tells apart any two values of one byte of the buffer (R123(c)). -/
theorem crcOf_set_injective {bytes : List Byte} {i : Nat} (hi : i < bytes.length) :
    Function.Injective fun b => crcOf (bytes.set i b) := by
  intro b b' h
  simp only [crcOf, List.set_eq_take_append_cons_drop, if_pos hi, List.foldl_append, List.foldl_cons] at h
  exact crcByte_injective_right _ (foldl_crcByte_injective _ h)

/-! ### CRC8 as an operation -/

theorem exec_crc8_of_lt {buf : List Byte} {length : Nat} (s : State) (h : buf.length < length) :
    exec (.crc8 buf length) s = .next (refusedFrom s .crcLengthBeyondBuffer) := by
  simp only [exec, execCrc8, opCrc8, runCrc8_of_lt h]
  rfl

/-- CRC8 of a whole buffer. -/
theorem exec_crc8_length {bytes : List Byte} {n : Nat} (s : State) (h : n = bytes.length) :
    exec (.crc8 bytes n) s = .next (completedFrom s (.byte (crcOf bytes))) := by
  rw [exec_crc8 s h.le, List.take_of_length_le h.ge]

/-! ### Bytes as polynomials over GF(2) (R122) -/

theorem bytePoly_zero : bytePoly 0#8 = 0 := by simp [bytePoly]

/-- XOR of bytes is addition of polynomials. -/
theorem bytePoly_xor (a b : Byte) : bytePoly (a ^^^ b) = bytePoly a + bytePoly b := by
  unfold bytePoly
  rw [← Finset.sum_add_distrib]
  refine Finset.sum_congr rfl fun i _ => ?_
  rw [BitVec.getLsbD_xor]
  cases a.getLsbD i <;> cases b.getLsbD i <;> simp [CharTwo.add_self_eq_zero]

theorem bytePoly_degree_lt (b : Byte) : (bytePoly b).degree < 8 := by
  have hmem : bytePoly b ∈ degreeLT (ZMod 2) 8 := by
    refine Submodule.sum_mem _ fun i hi => ?_
    split
    · rw [mem_degreeLT, degree_X_pow]
      exact_mod_cast Finset.mem_range.mp hi
    · exact Submodule.zero_mem _
  exact mem_degreeLT.mp hmem

/-- A left shift multiplies by `x`, but for the bit that leaves the byte at the top. -/
theorem bytePoly_shiftLeft_one (a : Byte) :
    bytePoly (a <<< 1) + (if a.msb then X ^ 8 else 0) = bytePoly a * X := by
  have hzero : (a <<< 1).getLsbD 0 = false := by simp
  have hlow : ∀ i ∈ Finset.range 7, (if (a <<< 1).getLsbD (i + 1) then (X ^ (i + 1) : (ZMod 2)[X]) else 0) =
      (if a.getLsbD i then X ^ i else 0) * X := by
    intro i hi
    rw [shiftLeft_one_getLsbD_succ a (Finset.mem_range.mp hi), ite_mul, zero_mul, pow_succ]
  have hhigh : (if a.msb then (X ^ 8 : (ZMod 2)[X]) else 0) = (if a.getLsbD 7 then X ^ 7 else 0) * X := by
    rw [ite_mul, zero_mul, ← pow_succ]
    rfl
  calc bytePoly (a <<< 1) + (if a.msb then X ^ 8 else 0)
      = (∑ i ∈ Finset.range 7, if (a <<< 1).getLsbD (i + 1) then X ^ (i + 1) else 0) +
          (if a.msb then X ^ 8 else 0) := by
        rw [bytePoly, Finset.sum_range_succ', hzero, if_neg Bool.false_ne_true, add_zero]
    _ = bytePoly a * X := by
        rw [Finset.sum_congr rfl hlow, hhigh, ← Finset.sum_mul, ← add_mul, ← Finset.sum_range_succ,
          bytePoly]

/-- The polynomial byte is the generator without its highest power. -/
theorem bytePoly_crcPoly : X ^ 8 + bytePoly crcPoly = crcGenerator := by
  have hbits : bytePoly crcPoly = 1 + X ^ 2 + X ^ 4 + X ^ 6 + X ^ 7 := by
    simp [bytePoly, crcPoly, Finset.sum_range_succ]
  rw [hbits, crcGenerator]
  ring

theorem crcGenerator_degree : crcGenerator.degree = 8 := by
  unfold crcGenerator
  compute_degree!

theorem crcGenerator_monic : crcGenerator.Monic := by
  unfold crcGenerator
  monicity!

/-! ### CRC8 modulo the generator (R122) -/

/-- The bit step multiplies by `x` modulo the generator. -/
theorem mk_bytePoly_crcShift (a : Byte) :
    AdjoinRoot.mk crcGenerator (bytePoly (crcShift a)) = AdjoinRoot.mk crcGenerator (bytePoly a * X) := by
  rw [crcShift_eq_xor, bytePoly_xor, ← bytePoly_shiftLeft_one]
  cases a.msb with
  | false => simp [bytePoly_zero]
  | true =>
    have hwrap : AdjoinRoot.mk crcGenerator (bytePoly crcPoly) = AdjoinRoot.mk crcGenerator (X ^ 8) := by
      rw [← sub_eq_zero, ← map_sub, CharTwo.sub_eq_add, add_comm, bytePoly_crcPoly, AdjoinRoot.mk_self]
    rw [if_pos rfl, if_pos rfl, map_add, map_add, hwrap]

theorem mk_bytePoly_iterate_crcShift (n : Nat) (a : Byte) :
    AdjoinRoot.mk crcGenerator (bytePoly (crcShift^[n] a)) =
      AdjoinRoot.mk crcGenerator (bytePoly a * X ^ n) := by
  induction n with
  | zero => rw [pow_zero, mul_one, Function.iterate_zero_apply]
  | succ n ih =>
    rw [Function.iterate_succ_apply', mk_bytePoly_crcShift, map_mul, ih, ← map_mul, mul_assoc, ← pow_succ]

theorem messagePoly_concat (bytes : List Byte) (b : Byte) :
    messagePoly (bytes ++ [b]) = messagePoly bytes * X ^ 8 + bytePoly b := by
  simp [messagePoly]

/-- CRC8 is congruent to `M(x) * x^8` modulo the generator. -/
theorem mk_bytePoly_crcOf (bytes : List Byte) :
    AdjoinRoot.mk crcGenerator (bytePoly (crcOf bytes)) =
      AdjoinRoot.mk crcGenerator (messagePoly bytes * X ^ 8) := by
  induction bytes using List.reverseRecOn with
  | nil => simp [crcOf, crcInit, messagePoly, bytePoly_zero]
  | append_singleton bytes b ih =>
    calc AdjoinRoot.mk crcGenerator (bytePoly (crcOf (bytes ++ [b])))
        = AdjoinRoot.mk crcGenerator ((bytePoly (crcOf bytes) + bytePoly b) * X ^ 8) := by
          rw [crcOf_concat, crcByte_eq_iterate, mk_bytePoly_iterate_crcShift, bytePoly_xor]
      _ = AdjoinRoot.mk crcGenerator ((messagePoly bytes * X ^ 8 + bytePoly b) * X ^ 8) := by
          rw [map_mul, map_add, ih, ← map_add, ← map_mul]
      _ = AdjoinRoot.mk crcGenerator (messagePoly (bytes ++ [b]) * X ^ 8) := by rw [messagePoly_concat]

/-- A byte has a lower degree than the generator, so that congruence makes it the remainder. -/
theorem bytePoly_crcOf (bytes : List Byte) :
    bytePoly (crcOf bytes) = (messagePoly bytes * X ^ 8) %ₘ crcGenerator := by
  have hdegree : (bytePoly (crcOf bytes)).degree < crcGenerator.degree :=
    crcGenerator_degree ▸ bytePoly_degree_lt _
  calc bytePoly (crcOf bytes)
      = bytePoly (crcOf bytes) %ₘ crcGenerator :=
        ((modByMonic_eq_self_iff crcGenerator_monic).mpr hdegree).symm
    _ = (messagePoly bytes * X ^ 8) %ₘ crcGenerator :=
        modByMonic_eq_of_dvd_sub crcGenerator_monic (AdjoinRoot.mk_eq_mk.mp (mk_bytePoly_crcOf bytes))

/-! ### The statements -/

/-- Settles O7: the byte step is eight bit steps, whose test reads bit 7. -/
theorem crc8ByteIsEightBitSteps : Obligations.Crc8ByteIsEightBitSteps := by
  intro acc b s
  have hexec : exec (.crc8Byte acc b) s = .next (completedFrom s (.byte (crcByte acc b))) := rfl
  rw [hexec, crcByte_eq_iterate]
  rfl

/-- Settles O8: an injective function on the finitely many bytes is a bijection. -/
theorem crc8ByteIsLinearBijection : Obligations.Crc8ByteIsLinearBijection := by
  refine ⟨crcByte_xor 0#8 0#8, Finite.injective_iff_bijective.mp (crcByte_injective_right 0#8),
    fun acc b => ?_⟩
  rw [crcByte, crcByte, BitVec.zero_xor]

/-- Settles O9, with one lemma for each of the two lengths. -/
theorem crc8FoldsTheRange : Obligations.Crc8FoldsTheRange :=
  fun buf length s =>
    ⟨fun h => ⟨crcOf (buf.take length), exec_crc8 s h, rfl⟩, fun h => exec_crc8_of_lt s h⟩

/-- Settles O10, by congruence modulo the generator and the degree of a byte. -/
theorem crc8IsPolynomialRemainder : Obligations.Crc8IsPolynomialRemainder :=
  fun buf length s h => ⟨_, crcOf (buf.take length), exec_crc8 s h, rfl, bytePoly_crcOf _⟩

/-- Settles O11, by induction on the two buffers together. -/
theorem crc8IsLinear : Obligations.Crc8IsLinear := by
  intro x y s h
  have hlen : x.length = (List.zipWith (· ^^^ ·) x y).length := by simp [h]
  refine ⟨_, _, _, crcOf x, crcOf y, exec_crc8_length s rfl, rfl, exec_crc8_length s rfl, rfl,
    exec_crc8_length s hlen, ?_⟩
  rw [crcOf_zipWith_xor h]
  rfl

/-- Settles O12: the last byte step takes the CRC with itself. -/
theorem crc8ResidueIsZero : Obligations.Crc8ResidueIsZero := by
  intro d s
  have hlen : d.length + 1 = (d ++ [crcOf d]).length := by simp
  refine ⟨_, _, crcOf d, exec_crc8_length s rfl, rfl, exec_crc8_length s hlen, ?_⟩
  rw [crcOf_concat, crcByte_self]
  rfl

/-- Settles O13: the CRC is injective in each byte, and the buffer itself holds another one there. -/
theorem crc8DetectsSingleByteChange : Obligations.Crc8DetectsSingleByteChange := by
  intro d i b s hi hb
  refine ⟨_, _, crcOf d, crcOf (d.set i b), exec_crc8_length s rfl, rfl,
    exec_crc8_length s List.length_set.symm, rfl, fun hcrc => hb ?_⟩
  have hsame : d[i] = b := crcOf_set_injective hi (by simpa using hcrc)
  rw [List.getElem?_eq_getElem hi, hsame]

end Sys2Proof.Proofs
end

section
/-! Proofs of the statements of the Channel Packer (41_packer.md): PACK and UNPACK invert each other between
the 16 values in [0, 2047] and the 22-byte payloads, bit by bit of the payload's stream. -/

namespace Sys2Proof.Proofs

open Sys2Proof Sys2Proof.Machine

/-! ### A value mod 2048 (R142) -/

theorem getLsbD_mod_2048 (v : Half) (m : Nat) :
    (v % 2048#16).getLsbD m = (decide (m < 11) && v.getLsbD m) := by
  have hmod : (v % 2048#16).toNat = v.toNat % 2 ^ 11 := BitVec.toNat_umod
  rw [← BitVec.testBit_toNat, hmod, Nat.testBit_mod_two_pow, BitVec.testBit_toNat]

theorem mod_2048_of_le {v : Half} (h : v.toNat ≤ 2047) : v % 2048#16 = v :=
  BitVec.eq_of_toNat_eq (Nat.mod_eq_of_lt (Nat.lt_succ_of_le h))

theorem map_mod_2048_of_le {values : List Half} (h : ∀ v ∈ values, v.toNat ≤ 2047) :
    values.map (fun v => v % 2048#16) = values :=
  (List.map_congr_left fun v hv => mod_2048_of_le (h v hv)).trans values.map_id

/-- PACK looks at a value's lane alone, and that is the value mod 2048 (R86, R142). -/
theorem packLane_mod_2048 (v : Half) : packLane (v % 2048#16) = packLane v := by
  have hlane : lane (v % 2048#16) = lane v := by
    refine BitVec.eq_of_getLsbD_eq fun m hm => ?_
    simp [lane, getLsbD_mod_2048, hm]
  funext cursor out
  rw [packLane, packLane, hlane]

theorem packFrom_map_mod_2048 (values : List Half) (cursor : Nat) (out : List Byte) :
    packFrom (values.map fun v => v % 2048#16) cursor out = packFrom values cursor out := by
  induction values generalizing cursor out with
  | nil => rfl
  | cons v rest ih => rw [List.map_cons, packFrom, packFrom, ih, packLane_mod_2048]

theorem packOf_map_mod_2048 (values : List Half) :
    packOf (values.map fun v => v % 2048#16) = packOf values :=
  packFrom_map_mod_2048 values 0 _

/-! ### UNPACK after PACK (R143) -/

/-- Each field read from a packed payload is the value that was put there, mod 2048. -/
theorem channelField_packOf {values : List Half} (hlen : values.length = 16) {i : Nat} (hi : i < 16) :
    channelField (packOf values) i = values.getD i 0#16 % 2048#16 := by
  refine BitVec.eq_of_getLsbD_eq fun m _ => ?_
  rw [channelField_getLsbD, getLsbD_mod_2048]
  by_cases hm : m < 11
  · rw [streamBit_packOf_channel hlen hi hm]
  · rw [decide_eq_false hm, Bool.false_and, Bool.false_and]

theorem unpackOf_packOf {values : List Half} (hlen : values.length = 16) :
    unpackOf (packOf values) = values.map fun v => v % 2048#16 := by
  refine List.ext_getElem (by simp [hlen]) fun i hi hi' => ?_
  have hfield := channelField_packOf hlen (by simpa using hi : i < 16)
  rw [List.getD_eq_getElem _ _ (by simpa using hi')] at hfield
  simpa [unpackOf] using hfield

/-! ### PACK after UNPACK (R144) -/

/-- A payload is its stream: bit `m` of byte `k` is stream bit `8 * k + m` (R64). -/
theorem streamBit_byte {payload : List Byte} {k m : Nat} (hk : k < payload.length) (hm : m < 8) :
    streamBit payload (8 * k + m) = payload[k].getLsbD m := by
  have hbyte : (8 * k + m) / 8 = k := by omega
  have hbit : (8 * k + m) % 8 = m := by omega
  rw [streamBit, hbyte, hbit, List.getD_eq_getElem]

theorem payload_ext {p q : List Byte} (hlen : p.length = q.length)
    (hbits : ∀ b < 8 * q.length, streamBit p b = streamBit q b) : p = q := by
  refine List.ext_getElem hlen fun k hp hq => BitVec.eq_of_getLsbD_eq fun m hm => ?_
  rw [← streamBit_byte hp hm, ← streamBit_byte hq hm]
  exact hbits _ (by omega)

/-- The 16 fields of 11 bits cover all 176 bits of a payload, so packing them gives it back (R89). -/
theorem packOf_unpackOf {p : List Byte} (hlen : p.length = 22) : packOf (unpackOf p) = p := by
  refine payload_ext (by rw [packOf_length, hlen]) fun b hb => ?_
  have hchannel : b / 11 < 16 := by omega
  have hlane : b % 11 < 11 := Nat.mod_lt _ (by decide)
  rw [streamBit_packOf (unpackOf_length p) (by omega), unpackOf_getD p hchannel, channelField_getLsbD,
    decide_eq_true hlane, Bool.true_and, Nat.div_add_mod]

theorem toNat_le_of_mem_unpackOf {p : List Byte} {v : Half} (hv : v ∈ unpackOf p) : v.toNat ≤ 2047 := by
  obtain ⟨i, -, rfl⟩ := List.mem_map.mp hv
  exact Nat.le_of_lt_succ (channelField_lt p i)

/-- On values in range PACK loses nothing, so UNPACK of the payload has them all. -/
theorem eq_unpackOf_of_packOf_eq {ws : List Half} {p : List Byte} (hlen : ws.length = 16)
    (hrange : ∀ w ∈ ws, w.toNat ≤ 2047) (hpack : p = packOf ws) : ws = unpackOf p := by
  rw [hpack, unpackOf_packOf hlen, map_mod_2048_of_le hrange]

/-! ### What PACK and BUILD_FRAME return (R140, R160) -/

/-- An operation that returned bytes was not refused (R21). -/
theorem refusalOf_eq_none_of_bytes {i : Instr} {s t : State} {bytes : List Byte} (hi : i ≠ .tick)
    (hexec : exec i s = .next t) (hret : t.ret = .bytes bytes) :
    refusalOf i s.block.txState = none := by
  rcases exec_cases i s (absurd · hi) with ⟨r, -, hrefused⟩ | ⟨hnone, -⟩
  · cases hexec.symm.trans hrefused
    cases hret
  · exact hnone

theorem eq_packOf_of_exec_pack {values : List Half} {s t : State} {p : List Byte}
    (hexec : exec (.pack values) s = .next t) (hret : t.ret = .bytes p) : p = packOf values := by
  have hlen : values.length = 16 := by
    simpa [refusalOf, transmits, operandRefusal] using
      refusalOf_eq_none_of_bytes (by simp) hexec hret
  cases (exec_pack s hlen).symm.trans hexec
  exact (Return.bytes.inj hret).symm

theorem eq_frameOf_of_exec_buildFrame {snap : List Half} {s t : State} {f : List Byte}
    (hexec : exec (.buildFrame snap) s = .next t) (hret : t.ret = .bytes f) : f = frameOf s.cfg snap := by
  have hlen : snap.length = 16 := by
    simpa [refusalOf, transmits, operandRefusal] using
      refusalOf_eq_none_of_bytes (by simp) hexec hret
  cases (exec_buildFrame s hlen).symm.trans hexec
  exact (Return.bytes.inj hret).symm

/-! ### The statements -/

/-- Settles O17: each field of the packed payload has the value's low 11 bits. -/
theorem unpackInvertsPack : Obligations.UnpackInvertsPack := by
  intro values s hlen
  exact ⟨_, _, packOf values, _, exec_pack s hlen, rfl, exec_unpack s (packOf_length values), rfl,
    unpackOf_packOf hlen, fun hrange => (unpackOf_packOf hlen).trans (map_mod_2048_of_le hrange)⟩

/-- Settles O18: what UNPACK answers packs to the payload, and any values in range that do are its answer. -/
theorem packIsBijectionOntoPayloads : Obligations.PackIsBijectionOntoPayloads := by
  intro p s hlen
  refine ⟨_, unpackOf p, exec_unpack s hlen, rfl, unpackOf_length p, fun v => toNat_le_of_mem_unpackOf,
    ⟨_, exec_pack s (unpackOf_length p), congrArg Return.bytes (packOf_unpackOf hlen)⟩, ?_⟩
  rintro ws hws hrange ⟨t, hexec, hret⟩
  exact eq_unpackOf_of_packOf_eq hws hrange (eq_packOf_of_exec_pack hexec hret)

/-- Settles O16: both calls complete with the same packed payload. -/
theorem packTruncatesToElevenBits : Obligations.PackTruncatesToElevenBits := by
  intro values s hlen
  refine ⟨?_, _, exec_pack s hlen⟩
  rw [exec_pack s hlen, exec_pack s ((List.length_map _).trans hlen), packOf_map_mod_2048]

/-- Settles O19: what is returned is the payload, or the frame with its constant bytes. -/
theorem packAndFrameSizesAreFixed : Obligations.PackAndFrameSizesAreFixed := by
  constructor
  · intro values s t p hexec hret
    rw [eq_packOf_of_exec_pack hexec hret, packOf_length]
  · intro snap s t f hexec hret
    rw [eq_frameOf_of_exec_buildFrame hexec hret]
    exact ⟨frameOf_length s.cfg snap, rfl, rfl⟩

end Sys2Proof.Proofs
end

section
/-! Proofs of the statements of the Frame Builder (42_frame_builder.md): the receiver check of a built frame,
and what the answers of the pure operations depend on. -/

namespace Sys2Proof.Proofs

open Sys2Proof Sys2Proof.Machine

/-! ### The receiver check (R163) -/

/-- The 24 bytes that a receiver checks are the covered bytes and their checksum (R80, R85). -/
theorem frameOf_checked (c : Config) (snap : List Half) :
    ((frameOf c snap).drop 2).take 24 =
      (frameType :: packOf snap) ++ [crcOf (frameType :: packOf snap)] := by
  refine List.take_of_length_le (l := (frameType :: packOf snap) ++ [_]) ?_
  simp

/-- Settles O21: the checked bytes end with the CRC of those before them, and the last byte step takes that
CRC with itself. -/
theorem receiverCheckOfFrameIsZero : Obligations.ReceiverCheckOfFrameIsZero := by
  intro snap s t f hexec hret
  rw [eq_frameOf_of_exec_buildFrame hexec hret, frameOf_checked, frameOf_covered]
  refine ⟨⟨_, exec_crc8_length s (by simp), ?_⟩,
    _, _, exec_crc8_length s (by simp), rfl, frameOf_getElem?_crc s.cfg snap⟩
  have hresidue : crcOf ((frameType :: packOf snap) ++ [crcOf (frameType :: packOf snap)]) = 0x00#8 := by
    rw [crcOf_concat, crcByte_self]
  exact congrArg Return.byte hresidue

/-! ### The pure operations (R164, R256) -/

theorem exec_crc8Byte (acc b : Byte) (s : State) :
    exec (.crc8Byte acc b) s = .next (completedFrom s (.byte (crcByte acc b))) := rfl

/-- Of the state, the answer of a pure operation with operands of its shape reads ADDR alone. -/
theorem exec_pure {i : Instr} (hpure : transmits i = false) (hwf : i.wellFormed = true) :
    ∃ answer : Byte → Return, (∀ a q, answer a ≠ .refused q) ∧
      ∀ s, exec i s = .next (completedFrom s (answer s.cfg.addr)) := by
  cases i with
  | crc8Byte acc b => exact ⟨fun _ => .byte (crcByte acc b), nofun, exec_crc8Byte acc b⟩
  | crc8 buf length =>
    exact ⟨fun _ => .byte (crcOf (buf.take length)), nofun, fun s => exec_crc8 s (of_decide_eq_true hwf)⟩
  | pack values =>
    exact ⟨fun _ => .bytes (packOf values), nofun, fun s => exec_pack s (of_decide_eq_true hwf)⟩
  | unpack payload =>
    exact ⟨fun _ => .halves (unpackOf payload), nofun, fun s => exec_unpack s (of_decide_eq_true hwf)⟩
  | buildFrame snap =>
    exact ⟨fun a => .bytes (a :: frameTail snap), nofun,
      fun s => exec_buildFrame s (of_decide_eq_true hwf)⟩
  | txPreamble | txByte | sendBuffer | buildAndSend | tick | reset => cases hpure

/-- Settles O50: one function of ADDR gives the answer in both states. -/
theorem pureOperationsTouchNothing : Obligations.PureOperationsTouchNothing := by
  intro i s s' hpure hwf haddr
  obtain ⟨answer, hcompletes, hexec⟩ := exec_pure hpure hwf
  refine ⟨answer s.cfg.addr, hcompletes s.cfg.addr, hexec s, ?_⟩
  rw [haddr]
  exact hexec s'

end Sys2Proof.Proofs
end

section
/-! Proofs of the statements of the Timed Bit Transmitter (43_transmitter.md): one character and its
tolerance, the preamble, and whole transmissions with their bytes, times, host windows and order of events. -/

namespace Sys2Proof.Proofs

open Sys2Proof Sys2Proof.Machine

/-! ### The operations as ends of their procedures (R104) -/

theorem exec_txPreamble_of_idle {s : State} (hidle : s.block.txState = .idle) :
    exec .txPreamble s = .next ((runPreamble s).complete .unit) := by
  simp [exec, execTxPreamble, opTxPreamble, requireIdle_of_idle hidle]

theorem exec_txByte_of_run {b : Byte} {s u : State} (hidle : s.block.txState = .idle)
    (h : runTxByte b s = .ok u) : exec (.txByte b) s = .next (u.complete .unit) := by
  simp [exec, execTxByte, opTxByte, requireIdle_of_idle hidle, h]

theorem exec_sendBuffer_of_run {buf : List Byte} {n : Nat} {s u : State}
    (h : runSendBuffer buf n s = .ok u) : exec (.sendBuffer buf n) s = .next (u.complete .unit) := by
  simp [exec, execSendBuffer, opSendBuffer, h]

theorem exec_buildAndSend_of_run {snap : List Half} {s u : State}
    (h : runBuildAndSend snap s = .ok u) : exec (.buildAndSend snap) s = .next (u.complete .unit) := by
  simp [exec, execBuildAndSend, opBuildAndSend, h]

/-! ### A transmitting TICK (R220) -/

/-- The gate's answer where TICK reads it. -/
def tickGate (s : State) : Op Bool := s.readTime.gateOpen (counterAt s.cfg s.readTime.now)

theorem exec_tick_of_run {s u : State} (hidle : s.block.txState = .idle) (hgate : tickGate s = .ok true)
    (h : runTickSend s.readTime = .ok u) : exec .tick s = .next (u.complete .unit) := by
  rw [tickGate] at hgate
  simp [exec, execTick, opTick, requireIdle_of_idle hidle, hgate, h]

/-- A TICK that drives the line found its gate open: with the gate closed it only reads the time, and with
an unwritten `last_send` it faults. -/
theorem tickGate_of_drives {s t : State} {es : List Event} (hidle : s.block.txState = .idle)
    (hexec : exec .tick s = .next t) (hlog : t.log = s.log ++ es) (hdrives : lineHistory es ≠ []) :
    tickGate s = .ok true := by
  rcases gateOpen_cases s.readTime (counterAt s.cfg s.readTime.now) with
    ⟨_ | _, hgate⟩ | ⟨-, -, hfault⟩
  · cases hexec.symm.trans (exec_tick_closed hidle hgate)
    have hnone : es = [] := by simpa using hlog
    rw [hnone] at hdrives
    exact absurd rfl hdrives
  · exact hgate
  · simp [exec, execTick, opTick, requireIdle_of_idle hidle, hfault] at hexec

/-- What a transmitting TICK adds to the log is what its procedure adds. -/
theorem tick_of_run {s t u : State} {es fs : List Event} (hidle : s.block.txState = .idle)
    (hexec : exec .tick s = .next t) (hlog : t.log = s.log ++ es) (hdrives : lineHistory es ≠ [])
    (hrun : runTickSend s.readTime = .ok u) (hrunLog : u.log = s.readTime.log ++ fs) :
    t = u.complete .unit ∧ es = fs := by
  have hgate := tickGate_of_drives hidle hexec hlog hdrives
  cases hexec.symm.trans (exec_tick_of_run hidle hgate hrun)
  rw [State.readTime_log] at hrunLog
  exact ⟨rfl, List.append_cancel_left (hlog.symm.trans hrunLog)⟩

/-! ### What every transmission does, whichever operation makes it (R182, R183, R220) -/

/-- From `s` to `t` the bytes were sent, with the events `es`. -/
structure Transmitted (s t : State) (bytes : List Byte) (es : List Event) : Prop where
  log : t.log = s.log ++ es
  levels : levels es = transmissionShape s.cfg bytes
  line : t.block.line = .low
  hostWork : t.hostWork = s.hostWork.drop (windowsRun s.block.irqMasked (bytes.length + 1))
  answers : (hostAnswers es).length =
    ((s.hostWork.take (windowsRun s.block.irqMasked (bytes.length + 1))).map List.length).sum

theorem transmitted_sendBuffer {buf : List Byte} {n : Nat} {s : State} (hidle : s.block.txState = .idle)
    (hn : n ≤ buf.length) :
    ∃ t es, exec (.sendBuffer buf n) s = .next t ∧ Transmitted s t (buf.take n) es := by
  obtain ⟨t, es, hexec, hsent, hlevels, -, hline, -, -, hwork, hanswers⟩ := exec_sendBuffer hidle hn
  have hlen : (buf.take n).length = n := List.length_take_of_le hn
  refine ⟨_, es, hexec, hsent.log, hlevels, hline, ?_, ?_⟩ <;> rw [hlen]
  · exact hwork
  · exact hanswers

theorem transmitted_buildAndSend {snap : List Half} {s : State} (hidle : s.block.txState = .idle)
    (hlen : snap.length = 16) :
    ∃ t es, exec (.buildAndSend snap) s = .next t ∧ Transmitted s t (frameOf s.cfg snap) es := by
  obtain ⟨t, es, hexec, hsent, hlevels, -, hline, -, -, hwork, hanswers⟩ := exec_buildAndSend hidle hlen
  refine ⟨_, es, hexec, hsent.log, hlevels, hline, ?_, ?_⟩ <;> rw [frameOf_length]
  · exact hwork
  · exact hanswers

theorem transmitted_tick {s t : State} {es : List Event} (hidle : s.block.txState = .idle)
    (hexec : exec .tick s = .next t) (hlog : t.log = s.log ++ es) (hdrives : lineHistory es ≠ []) :
    Transmitted s t (frameOf s.cfg s.readTime.snapDraw) es := by
  obtain ⟨u, fs, hopen, hran, -, hlevels, -, hline, -, -, -, -, -, -, -, -, -, -, hwork, hanswers⟩ :=
    exec_tick_open hidle (tickGate_of_drives hidle hexec hlog hdrives)
  cases hexec.symm.trans hopen
  obtain rfl : es = fs := List.append_cancel_left (hlog.symm.trans hran.log)
  refine ⟨hlog, hlevels, hline, ?_, ?_⟩ <;> rw [frameOf_length]
  · exact hwork
  · exact hanswers

/-! ### One character (R181, R189(a), R190) -/

/-- Settles O23: the end of the critical section is the end of the operation, and clears `irq_saved` and
`t0`. -/
theorem txByteDrivesOneCharacter : Obligations.TxByteDrivesOneCharacter := by
  intro b s hidle
  obtain ⟨t, t0, ts, hrun, hlen, ht0, hran, hslots, hlo, hhi, hblock, hwork, hsnap⟩ := runTxByte_spec b s
  refine ⟨_, t0, fun k => ts.getD k 0, exec_txByte_of_run hidle hrun, ht0, ?_, fun k hk => ?_, hlo, hhi,
    ?_, rfl, hran.cfg, hran.calls, hwork, hsnap⟩
  · rw [State.complete_log, hran.log, drivesAt_charLevels b hlen]
    simp
  · have hget : ts[k]? = some (ts.getD k 0) := by simp [hlen, hk]
    exact hslots k _ hget
  · rw [State.complete_block, hblock]
    rfl

theorem lineHistory_map_drive (time : Nat → Nat) (level : Nat → Level) (ks : List Nat) :
    lineHistory (ks.map fun k => .drive (time k) (level k)) = ks.map fun k => (time k, level k) := by
  simp [lineHistory, List.filterMap_map, Event.drive?, Function.comp_def]

/-- The line history of a TX_BYTE, with the time of its return as that of slot boundary 10, keeps every
boundary within EDGE_SLACK (R189(a)). -/
theorem txByte_boundaries {b : Byte} {s t : State} {at_ : Nat → Nat} (hidle : s.block.txState = .idle)
    (hexec : exec (.txByte b) s = .next t)
    (hline : lineHistory t.log = lineHistory s.log ++ (List.range 10).map fun k => (at_ k, slotShape b k))
    (hend : at_ 10 = t.now) :
    ∃ t0, ∀ k ≤ 10, t0 + k * s.cfg.fTick / 420000 ≤ at_ k ∧
      at_ k ≤ t0 + k * s.cfg.fTick / 420000 + s.cfg.edgeSlack := by
  obtain ⟨t', t0, time, hexec', -, hlog, hslots, hlo, hhi, -⟩ := txByteDrivesOneCharacter b s hidle
  cases hexec.symm.trans hexec'
  have hsame : ∀ k < 10, at_ k = time k := by
    simp only [hlog, lineHistory_append, lineHistory_mask, lineHistory_map_drive, List.append_nil] at hline
    simpa using List.append_cancel_left hline.symm
  refine ⟨t0, fun k hk => ?_⟩
  rcases Nat.lt_or_eq_of_le hk with hk | rfl
  · rw [hsame k hk]
    exact hslots k hk
  · rw [hend]
    exact ⟨hlo, hhi⟩

/-- Rounding the boundaries down moves the length of a slot by at most one tick (R95). -/
theorem abs_slot_sub_period_le (f k : Nat) :
    |(((k + 1) * f / 420000 : Nat) : Rat) - (k * f / 420000 : Nat) - (f : Rat) / 420000| ≤ 1 := by
  have hnext : (k + 1) * f = k * f + f := Nat.succ_mul k f
  have hlo : (420000 * ((k + 1) * f / 420000) : Nat) ≤ 420000 * (k * f / 420000) + f + 420000 := by omega
  have hhi : 420000 * (k * f / 420000) + f ≤ (420000 * ((k + 1) * f / 420000) : Nat) + 420000 := by omega
  generalize (k + 1) * f / 420000 = stop at hlo hhi ⊢
  generalize k * f / 420000 = start at hlo hhi ⊢
  qify at hlo hhi
  rw [abs_le]
  constructor <;> linarith

/-- The condition of R190: one tick of rounding and the slack are within the tolerance of a bit period. -/
theorem one_add_edgeSlack_le {c : Config} {tol : Rat} (hf : 0 < c.fTick) (htol : c.bitTolerance = some tol)
    (h : meetsBitTolerance c = true) : 1 + (c.edgeSlack : Rat) ≤ tol * ((c.fTick : Rat) / 420000) := by
  have hpos : (0 : Rat) < c.fTick := Nat.cast_pos.mpr hf
  have hcondition : (1 + c.edgeSlack : Rat) / c.fTick ≤ tol * bitUs / 1000000 := by
    simpa [meetsBitTolerance, htol] using h
  rw [div_le_iff₀ hpos, bitUs] at hcondition
  linarith

/-- Settles O24: two boundaries that are each late by at most EDGE_SLACK leave a slot its length within
EDGE_SLACK, and the rounding of the boundaries costs one tick more. -/
theorem slotDurationsMeetTolerance : Obligations.SlotDurationsMeetTolerance := by
  intro b s t at_ tol hwf hexec hidle hline hend k hk
  obtain ⟨t0, hbounds⟩ := txByte_boundaries hidle hexec hline hend
  have hstart := hbounds k (by omega)
  have hstop := hbounds (k + 1) (by omega)
  have hslack : |(at_ (k + 1) : Int) - at_ k -
      (((k + 1) * s.cfg.fTick / 420000 : Nat) - (k * s.cfg.fTick / 420000 : Nat))| ≤ s.cfg.edgeSlack := by
    rw [abs_le]
    omega
  refine ⟨by omega, fun htol hmeets => ?_⟩
  have hf : 0 < s.cfg.fTick := lt_of_lt_of_le (by decide) hwf.1
  have hslackRat : |(at_ (k + 1) : Rat) - at_ k -
      (((k + 1) * s.cfg.fTick / 420000 : Nat) - (k * s.cfg.fTick / 420000 : Nat))| ≤ s.cfg.edgeSlack := by
    exact_mod_cast hslack
  have hround := abs_slot_sub_period_le s.cfg.fTick k
  have htolerance := one_add_edgeSlack_le hf htol hmeets
  calc |((at_ (k + 1) : Rat) - at_ k) - (s.cfg.fTick : Rat) / 420000|
      ≤ |(at_ (k + 1) : Rat) - at_ k -
          (((k + 1) * s.cfg.fTick / 420000 : Nat) - (k * s.cfg.fTick / 420000 : Nat))| +
        |(((k + 1) * s.cfg.fTick / 420000 : Nat) : Rat) - (k * s.cfg.fTick / 420000 : Nat) -
          (s.cfg.fTick : Rat) / 420000| := abs_sub_le _ _ _
    _ ≤ tol * ((s.cfg.fTick : Rat) / 420000) := by linarith

/-! ### The preamble (R180, R189(b)) -/

/-- Settles O25, with no level where the preamble is off and its four where it is on. -/
theorem txPreambleHoldsLevelsAndGap : Obligations.TxPreambleHoldsLevelsAndGap := by
  intro s hidle
  obtain ⟨ts, hlen, hran, hphase, hlast, hnow, hblock, hwork, hsnap⟩ := runPreamble_spec s
  have hcleared : (runPreamble s).block.clearTransients = { s.block.clearTransients with
      line := if s.cfg.preambleEnable then .low else s.block.line } := by
    rw [hblock]
    rfl
  have hgap : s.now + s.cfg.gapTicks ≤ (runPreamble s).now := by omega
  refine ⟨_, fun k => ts.getD k 0, exec_txPreamble_of_idle hidle, ?_, fun hon => ?_, hgap, hcleared, rfl,
    hran.cfg, hran.calls, hwork, hsnap⟩
  · rw [State.complete_log, hran.log]
    congr 1
    cases hon : s.cfg.preambleEnable with
    | false => simp [preambleShape, hon, drivesAt]
    | true =>
      simp only [preambleShape, hon, if_true] at hlen ⊢
      match ts, hlen with
      | [_, _, _, _], _ => rfl
  · simp only [preambleShape, hon, if_true] at hlen hran
    match ts, hlen, hphase, hlast, hran with
    | [a, b, c, d], _, hphase, hlast, hran =>
      have hfirst : s.now ≤ a := by
        have htimes := hran.times
        simp only [drivesAt_cons, timesWithin, Event.time, Bool.and_eq_true] at htimes
        exact of_decide_eq_true htimes.1
      exact ⟨hfirst, hphase 0 a b rfl rfl, hphase 1 b c rfl rfl, hphase 2 c d rfl rfl, hlast d rfl⟩

/-! ### The bytes of a transmission and its frame (R182, R183, R187) -/

/-- A whole transmission leaves of the block what it found, but for the line, the refusal mark and the
transient fields. -/
theorem clearTransients_of_sent {s t : State} {es : List Event} (hsent : Sent s t es)
    (hline : t.block.line = .low) (htx : t.block.txState = s.block.txState) :
    t.block.clearTransients =
      { s.block.clearTransients with line := .low, refused := t.block.refused } := by
  simp [Block.clearTransients, hline, htx, hsent.irqMasked, hsent.sentAny, hsent.lastSend]

/-- Settles O26, from what the procedure sends and what every part of a transmission leaves alone. -/
theorem sendBufferSendsTheBytes : Obligations.SendBufferSendsTheBytes := by
  intro buf n s hidle hn
  obtain ⟨t, es, hexec, hsent, hlevels, htrace, hline, htx, hnow, -⟩ := exec_sendBuffer hidle hn
  exact ⟨_, es, hexec, hsent.log, hlevels, htrace, hnow,
    clearTransients_of_sent hsent hline (htx.trans hidle.symm), hsent.refused, hsent.quiet, rfl, hsent.cfg,
    hsent.calls, hsent.snapInputs⟩

/-- Settles O27: the frame that BUILD_FRAME answers depends on the configuration and the snapshot alone. -/
theorem buildAndSendSendsTheFrame : Obligations.BuildAndSendSendsTheFrame := by
  intro snap s hidle hlen
  obtain ⟨t, es, hexec, hsent, hlevels, htrace, hline, htx, hnow, -⟩ := exec_buildAndSend hidle hlen
  exact ⟨_, _, es, frameOf s.cfg snap, hexec, exec_buildFrame s hlen, rfl, hsent.log, hlevels, htrace, hnow,
    clearTransients_of_sent hsent hline (htx.trans hidle.symm), hsent.refused, hsent.quiet, rfl, hsent.cfg,
    hsent.calls, hsent.snapInputs⟩

/-- An operation that answered without a refusal had no reason for one (R241). -/
theorem refusalOf_eq_none {i : Instr} {s t : State} (hexec : exec i s = .next t)
    (hret : ∀ r, t.ret ≠ .refused r) : refusalOf i s.block.txState = none := by
  by_cases hbusy : transmits i = true ∧ s.block.txState ≠ .idle
  · cases hexec.symm.trans (exec_reentrant hbusy.1 hbusy.2)
    exact absurd rfl (hret _)
  · by_cases htick : i = .tick
    · rw [refusalOf, if_neg hbusy, htick]
      rfl
    · rcases exec_cases i s (absurd · htick) with ⟨r, -, hrefused⟩ | ⟨hnone, -⟩
      · cases hexec.symm.trans hrefused
        exact absurd rfl (hret r)
      · exact hnone

/-- An operation that transmits and has no reason to be refused finds the block IDLE, and has operands of its
shape (R241, R256). -/
theorem idle_of_refusalOf_eq_none {i : Instr} {x : TxState} (hi : transmits i = true)
    (h : refusalOf i x = none) : x = .idle ∧ operandRefusal i = none := by
  by_cases hx : x = .idle
  · exact ⟨hx, by simpa [refusalOf, hx] using h⟩
  · simp [refusalOf, hi, hx] at h

/-- After a transmission the line is LOW, and the last level driven is LOW too (R187). -/
theorem line_low_of_transmitted {s t : State} {bytes : List Byte} {es : List Event}
    (h : Transmitted s t bytes es) : t.block.line = .low ∧ (levels t.log).getLast? = some .low := by
  refine ⟨h.line, ?_⟩
  rw [h.log, levels_append, h.levels, transmissionShape, ← List.append_assoc]
  exact List.getLast?_concat

/-- Settles O28: an operation that is not refused was invoked while IDLE and made its transmission. -/
theorem lineIsIdleAfterTransmission : Obligations.LineIsIdleAfterTransmission := by
  intro i s t es hi hexec hret hlog hdrives
  have hnone := refusalOf_eq_none hexec hret
  rcases hi with ⟨buf, n, rfl⟩ | ⟨snap, rfl⟩ | rfl
  · obtain ⟨hidle, hoperands⟩ := idle_of_refusalOf_eq_none rfl hnone
    have hn : n ≤ buf.length := by simpa [operandRefusal] using hoperands
    obtain ⟨t', es', hexec', hsent⟩ := transmitted_sendBuffer hidle hn
    cases hexec.symm.trans hexec'
    exact line_low_of_transmitted hsent
  · obtain ⟨hidle, hoperands⟩ := idle_of_refusalOf_eq_none rfl hnone
    have hlen : snap.length = 16 := by simpa [operandRefusal] using hoperands
    obtain ⟨t', es', hexec', hsent⟩ := transmitted_buildAndSend hidle hlen
    cases hexec.symm.trans hexec'
    exact line_low_of_transmitted hsent
  · obtain ⟨hidle, -⟩ := idle_of_refusalOf_eq_none rfl hnone
    exact line_low_of_transmitted (transmitted_tick hidle hexec hlog (hdrives rfl))

/-! ### The times of a transmission (R96, R189) -/

/-- Settles O29, with the law of each of the three procedures. -/
theorem transmissionKeepsTheTimeBounds : Obligations.TransmissionKeepsTheTimeBounds := by
  refine ⟨fun buf n s hidle hn => ?_, fun snap s hidle hlen => ?_,
    fun s t es hidle hexec hlog hdrives => ?_⟩
  · obtain ⟨t, es, hrun, hsent, htimes⟩ := runSendBuffer_times hidle hn
    exact ⟨_, es, exec_sendBuffer_of_run hrun, hsent.log, htimes⟩
  · obtain ⟨t, es, hrun, hlog, htimes⟩ := runBuildAndSend_times hidle hlen
    exact ⟨_, _, es, _, exec_buildAndSend_of_run hrun, exec_buildFrame s hlen, rfl, hlog, htimes⟩
  · obtain ⟨u, fs, hrun, hrunLog, htimes⟩ := runTickSend_times (s := s.readTime) (by simpa using hidle)
    obtain ⟨rfl, rfl⟩ := tick_of_run hidle hexec hlog hdrives hrun hrunLog
    have hlen := snapDraw_length s.readTime
    simp only [State.readTime_cfg, State.readTime_block] at htimes
    exact ⟨_, _, _, hlen, exec_buildFrame s hlen, rfl,
      keepsTimeBounds_mono htimes (ran_readTime s).now_le (le_refl _)⟩

/-! ### The order of the events (R182, R184, R188) -/

/-- Settles O55, with the law of each of the three procedures. -/
theorem transmissionEventsStandInOrder : Obligations.TransmissionEventsStandInOrder := by
  refine ⟨fun buf n s hidle hn => ?_, fun snap s hidle hlen => ?_,
    fun s t es hidle hexec hlog hdrives => ?_⟩
  · obtain ⟨t, es, hrun, hsent, horder⟩ := runSendBuffer_events hidle hn
    exact ⟨_, es, exec_sendBuffer_of_run hrun, hsent.log, horder⟩
  · obtain ⟨t, es, hrun, hlog, horder⟩ := runBuildAndSend_events hidle hlen
    exact ⟨_, _, es, _, exec_buildAndSend_of_run hrun, exec_buildFrame s hlen, rfl, hlog, horder⟩
  · obtain ⟨u, fs, hrun, hrunLog, horder⟩ := runTickSend_events (s := s.readTime) (by simpa using hidle)
    obtain ⟨rfl, rfl⟩ := tick_of_run hidle hexec hlog hdrives hrun hrunLog
    have hlen := snapDraw_length s.readTime
    simp only [State.readTime_cfg, State.readTime_block, State.readTime_hostWork] at horder
    exact ⟨_, _, _, hlen, exec_buildFrame s hlen, rfl, horder⟩

/-! ### The windows of host activity (R188, R243, R246) -/

/-- A transmission of `n` bytes has `n + 1` windows, and uses them all or none. -/
theorem windows_of_transmitted {s t : State} {bytes : List Byte} {es : List Event} {n : Nat}
    (h : Transmitted s t bytes es) (hn : bytes.length = n) :
    (s.block.irqMasked = true → t.hostWork = s.hostWork ∧ hostAnswers es = []) ∧
    (s.block.irqMasked = false → t.hostWork = s.hostWork.drop (n + 1) ∧
      (hostAnswers es).length = ((s.hostWork.take (n + 1)).map List.length).sum) := by
  subst hn
  refine ⟨fun hmask => ?_, fun hmask => ?_⟩
  · simpa [hmask, windowsRun] using And.intro h.hostWork h.answers
  · simpa [hmask, windowsRun] using And.intro h.hostWork h.answers

/-- Settles O52: a frame has 26 bytes. -/
theorem transmissionGivesHostItsWindows : Obligations.TransmissionGivesHostItsWindows := by
  refine ⟨fun buf n s hidle hn => ?_, fun i s t es hidle hi hexec hlog hdrives => ?_⟩
  · obtain ⟨t, es, hexec, hsent⟩ := transmitted_sendBuffer hidle hn
    exact ⟨t, es, hexec, hsent.log, windows_of_transmitted hsent (List.length_take_of_le hn)⟩
  · rcases hi with ⟨snap, rfl, hlen⟩ | rfl
    · obtain ⟨t', es', hexec', hsent⟩ := transmitted_buildAndSend hidle hlen
      cases hexec.symm.trans hexec'
      obtain rfl : es = es' := List.append_cancel_left (hlog.symm.trans hsent.log)
      exact windows_of_transmitted hsent (frameOf_length _ _)
    · exact windows_of_transmitted (transmitted_tick hidle hexec hlog (hdrives rfl)) (frameOf_length _ _)

/-! ### The waveform (R90, R191) -/

@[simp] theorem charShape_length (b : Byte) : (charShape b).length = 10 := by simp [charShape]

theorem slotShape_data (b : Byte) {d : Nat} (hd : d < 8) :
    slotShape b (d + 1) = if b.getLsbD d then .low else .high := by
  have hstop : d ≠ 8 := by omega
  simp [slotShape, hstop]

/-- The eight data slots show the eight bits of a byte (R91). -/
theorem charShape_injective : Function.Injective charShape := by
  intro a b h
  refine BitVec.eq_of_getLsbD_eq fun d hd => ?_
  have hslot : slotShape a (d + 1) = slotShape b (d + 1) :=
    List.map_inj_left.mp h (d + 1) (List.mem_range.mpr (by omega))
  rw [slotShape_data a hd, slotShape_data b hd] at hslot
  cases ha : a.getLsbD d <;> cases hb : b.getLsbD d <;> simp [ha, hb] at hslot ⊢

/-- Characters have one length, so that a sequence of them falls apart in one way only. -/
theorem flatMap_charShape_injective : ∀ {xs ys : List Byte},
    xs.flatMap charShape = ys.flatMap charShape → xs = ys
  | [], [], _ => rfl
  | [], y :: ys, h => by simpa using congrArg List.length h.symm
  | x :: xs, [], h => by simpa using congrArg List.length h
  | x :: xs, y :: ys, h => by
    rw [List.flatMap_cons, List.flatMap_cons] at h
    obtain ⟨hfirst, hrest⟩ := List.append_inj h (by simp)
    rw [charShape_injective hfirst, flatMap_charShape_injective hrest]

theorem transmissionShape_injective (c : Config) : Function.Injective (transmissionShape c) := by
  intro xs ys h
  simp only [transmissionShape, List.append_cancel_left_eq, List.append_cancel_right_eq] at h
  exact flatMap_charShape_injective h

/-- The levels that a SEND_BUFFER of a whole buffer adds to the line history (R182). -/
theorem levels_of_sendBuffer {bytes : List Byte} {s t : State} {es : List Event}
    (hidle : s.block.txState = .idle) (hexec : exec (.sendBuffer bytes bytes.length) s = .next t)
    (hlog : t.log = s.log ++ es) : levels es = transmissionShape s.cfg bytes := by
  obtain ⟨t', es', hexec', hsent⟩ := transmitted_sendBuffer hidle (Nat.le_refl bytes.length)
  cases hexec.symm.trans hexec'
  rw [List.append_cancel_left (hlog.symm.trans hsent.log), hsent.levels, List.take_length]

/-- Settles O31: the levels are the shape of the bytes, and no two buffers have one shape. -/
theorem waveformDeterminesTheBytes : Obligations.WaveformDeterminesTheBytes := by
  intro xs ys s s' t t' es es' hcfg hidle hidle' hexec hexec' hlog hlog' hlevels
  rw [levels_of_sendBuffer hidle hexec hlog, levels_of_sendBuffer hidle' hexec' hlog', hcfg] at hlevels
  exact transmissionShape_injective s'.cfg hlevels

/-! ### The transitions of `tx_state` (R184) -/

/-- From BYTE(i) the next characters' states, and then IDLE, are transitions of R184. -/
theorem txPathOk_bytes (n i : Nat) :
    txPathOk (.byte i) ((List.range' (i + 1) n).map TxState.byte ++ [.idle]) = true := by
  induction n generalizing i with
  | zero => rfl
  | succ n ih => simpa [List.range'_succ, txPathOk, txStepOk] using ih (i + 1)

theorem txPathOk_transmissionTx (n : Nat) : txPathOk .idle (transmissionTx n) = true := by
  rw [transmissionTx, List.range_eq_range']
  cases n with
  | zero => rfl
  | succ n => simpa [List.range'_succ, txPathOk, txStepOk] using txPathOk_bytes n 0

theorem transmissionTx_nodup (n : Nat) : (transmissionTx n).Nodup := by
  have hbytes : ((List.range n).map TxState.byte).Nodup :=
    List.nodup_range.map fun _ _ => TxState.byte.inj
  simp [transmissionTx, List.nodup_append, hbytes]

theorem transmissionTx_getLast? (n : Nat) : (transmissionTx n).getLast? = some .idle :=
  List.getLast?_concat

/-- Settles O32: a refusal writes no event, and a completed operation leaves no transition or those of one
transmission. -/
theorem txStateTakesListedTransitions : Obligations.TxStateTakesListedTransitions := by
  intro i s t hexec
  rcases exec_next hexec with ⟨r, -, rfl⟩ | ⟨u, r, es, rfl, -, hu⟩
  · exact ⟨[], by simp, rfl, List.nodup_nil, rfl, .inl rfl⟩
  · refine ⟨es, hu.log, ?_⟩
    rcases hu.trace with htrace | ⟨n, hidle, htrace, hsends⟩
    · rw [htrace]
      exact ⟨rfl, List.nodup_nil, hu.txState, .inl rfl⟩
    · rw [htrace, hidle, transmissionTx_getLast?]
      exact ⟨txPathOk_transmissionTx n, transmissionTx_nodup n, hu.txState.trans hidle,
        .inr ⟨n, rfl, rfl, hsends⟩⟩

end Sys2Proof.Proofs
end

section
/-! Proofs of the statements of the Periodic Driver (44_periodic_driver.md): what the gate decides by, the two
outcomes of TICK, the times of its drives, and the first TICK after a RESET. -/

namespace Sys2Proof.Proofs

open Sys2Proof Sys2Proof.Machine

/-! ### The elapsed time (R221, R226) -/

/-- Without TIME_WIDTH the counter shows the time itself. -/
theorem counterAt_of_unbounded {c : Config} (hwidth : c.timeWidth = none) (t : Nat) :
    counterAt c t = t := by simp [counterAt, hwidth]

/-- A counter of `w` bits shows the time modulo `2^w`. -/
theorem counterAt_of_wrapping {c : Config} {w : Nat} (hwidth : c.timeWidth = some w) (t : Nat) :
    counterAt c t = t % 2 ^ w := by simp [counterAt, hwidth]

theorem elapsedTicks_of_unbounded {c : Config} (hwidth : c.timeWidth = none) (now last : Nat) :
    elapsedTicks c now last = (now : Int) - last := by simp [elapsedTicks, hwidth]

/-- Two readings of a wrapping counter give the elapsed time modulo the counter's range. -/
theorem elapsedTicks_of_wrapping {c : Config} {w now last : Nat} (hwidth : c.timeWidth = some w)
    (hle : last ≤ now) :
    elapsedTicks c (counterAt c now) (counterAt c last) = ((now - last) % 2 ^ w : Nat) := by
  simp only [elapsedTicks, counterAt_of_wrapping hwidth, hwidth]
  push_cast [Nat.cast_sub hle]
  exact (Int.sub_emod _ _ _).symm

/-- Settles O42: within one wrap the elapsed time is its own remainder. -/
theorem wrappingCounterElapsedIsExact : Obligations.WrappingCounterElapsedIsExact := by
  intro c w now last hwidth hle hlt
  rw [elapsedTicks_of_wrapping hwidth hle, Nat.mod_eq_of_lt hlt, Nat.cast_sub hle]

/-! ### What the gate decides by (R40, R221) -/

theorem tickGate_of_unsent {s : State} (hunsent : s.block.sentAny = false) : tickGate s = .ok true :=
  gateOpen_of_unsent _ (by simpa using hunsent)

theorem tickGate_of_sent {s : State} {stamp : Nat} (hsent : s.block.sentAny = true)
    (hstamp : s.block.lastSend = some stamp) :
    tickGate s = .ok (decide ((s.cfg.intervalTicks : Int) ≤
      elapsedTicks s.cfg (counterAt s.cfg s.readTime.now) stamp)) := by
  rw [tickGate, gateOpen_of_sent (s := s.readTime) _ (by simpa using hsent) (by simpa using hstamp),
    State.readTime_cfg]

/-- Where the stamp is written if anything was sent, the gate answers. -/
theorem tickGate_of_stamp {s : State} {stamp : Nat}
    (hstamp : s.block.sentAny = true → s.block.lastSend = some stamp) :
    tickGate s = .ok (decide (s.block.sentAny = false ∨
      (s.cfg.intervalTicks : Int) ≤ elapsedTicks s.cfg (counterAt s.cfg s.readTime.now) stamp)) := by
  cases hsent : s.block.sentAny with
  | false => simp [tickGate_of_unsent hsent]
  | true => simp [tickGate_of_sent hsent (hstamp hsent)]

/-! ### The two outcomes of TICK (R220, R222) -/

/-- A snapshot answers the channel store's first input, where there is one (R66). -/
theorem snapDraw_of_cons {s : State} {v : Vector Half 16} {rest : List (Vector Half 16)}
    (h : s.snapInputs = v :: rest) : s.snapDraw = v.toList := by simp [State.snapDraw, h]

/-- All that TICK does where its gate answers: it transmits and stamps the counter, or it holds. -/
theorem exec_tick_of_gate {s : State} {isOpen : Bool} (hidle : s.block.txState = .idle)
    (hgate : tickGate s = .ok isOpen) :
    ∃ t es, exec .tick s = .next t ∧ t.log = s.log ++ es ∧ s.readTime.now ≤ t.now ∧
      t.ret = .unit ∧ t.cfg = s.cfg ∧ t.calls = s.calls ∧
      (isOpen = true → tickSends s.readTime.now s t es ∧
        t.block.lastSend = some (counterAt s.cfg t.now)) ∧
      (isOpen = false → tickHolds s t es) := by
  cases isOpen with
  | false =>
    exact ⟨_, [], exec_tick_closed hidle hgate, by simp, le_refl _, rfl, by simp, by simp, by simp,
      fun _ => ⟨rfl, by simp, by simp, by simp⟩⟩
  | true =>
    obtain ⟨t, es, hexec, hran, htimes, hlevels, -, hline, htx, hmask, hsent, hstamp, hrefused, hquiet,
      -, -, hsnap, hnow, -⟩ := exec_tick_open hidle hgate
    have hlen := snapDraw_length s.readTime
    have hfirst : ∀ v rest, s.snapInputs = v :: rest → s.readTime.snapDraw = v.toList :=
      fun v rest h => snapDraw_of_cons (by simpa using h)
    have hblock : t.block.clearTransients = { s.block.clearTransients with
        line := .low, sentAny := true, lastSend := t.block.lastSend, refused := t.block.refused } := by
      simp [Block.clearTransients, hline, htx, hidle, hmask, hsent]
    exact ⟨t.complete .unit, es, hexec, hran.log, timesWithin_le htimes, rfl, hran.cfg, hran.calls,
      fun _ => ⟨⟨⟨_, _, _, hlen, hfirst, exec_buildFrame s hlen, rfl, hlevels⟩, hsnap, hnow,
        hblock, by simp [hstamp], hrefused, hquiet⟩, hstamp⟩, by simp⟩

/-- Whatever is sent, the idle level is driven after it (R187). -/
theorem drives_of_tickSends {r : Nat} {s t : State} {es : List Event} (h : tickSends r s t es) :
    lineHistory es ≠ [] := by
  obtain ⟨⟨_, _, _, -, -, -, -, hlevels⟩, -⟩ := h
  intro hnil
  simp [levels, hnil, transmissionShape] at hlevels

theorem no_drives_of_tickHolds {s t : State} {es : List Event} (h : tickHolds s t es) :
    lineHistory es = [] := by
  obtain ⟨rfl, -⟩ := h
  rfl

/-- The default interval is 20 ms of F_TICK, rounded up (R221). -/
theorem intervalTicks_forFTick (f : Nat) : 20 * f ≤ 1000 * (Config.forFTick f).intervalTicks ∧
    1000 * (Config.forFTick f).intervalTicks < 20 * f + 1000 := by
  have h : (Config.forFTick f).intervalTicks = (f * 20 + 999) / 1000 := rfl
  omega

/-- Settles O38: without TIME_WIDTH the gate compares the true times. -/
theorem tickTransmitsWhenGateOpen : Obligations.TickTransmitsWhenGateOpen := by
  refine ⟨fun s last hidle hwidth hstamp => ?_, intervalTicks_forFTick⟩
  have hgate := tickGate_of_stamp hstamp
  rw [elapsedTicks_of_unbounded hwidth, counterAt_of_unbounded hwidth] at hgate
  obtain ⟨t, es, hexec, hlog, hnow, hret, hcfg, hcalls, hsends, hholds⟩ := exec_tick_of_gate hidle hgate
  refine ⟨t, es, s.readTime.now, hexec, hlog, (ran_readTime s).now_le, hnow, hret, hcfg, hcalls, ?_⟩
  split_ifs with hopen
  · exact (hsends (decide_eq_true hopen)).1
  · exact hholds (decide_eq_false hopen)

/-- Settles O54: the gate compares the elapsed time modulo 2^TIME_WIDTH, which within one wrap is the true
one. -/
theorem tickOfWrappingCounter : Obligations.TickOfWrappingCounter := by
  intro s w last hidle hwidth hlast hstamp
  have hle : last ≤ s.readTime.now := hlast.trans (ran_readTime s).now_le
  rw [← counterAt_of_wrapping hwidth] at hstamp
  have hgate := tickGate_of_stamp hstamp
  simp only [elapsedTicks_of_wrapping hwidth hle, Nat.cast_le] at hgate
  obtain ⟨t, es, hexec, hlog, hnow, hret, hcfg, hcalls, hsends, hholds⟩ := exec_tick_of_gate hidle hgate
  refine ⟨t, es, s.readTime.now, hexec, hlog, (ran_readTime s).now_le, hnow, hret, hcfg, hcalls, ?_,
    fun hsent hlt => ?_⟩
  · split_ifs with hopen
    · rw [← counterAt_of_wrapping hwidth]
      exact hsends (decide_eq_true hopen)
    · exact hholds (decide_eq_false hopen)
  · rw [Nat.mod_eq_of_lt hlt, hsent] at hsends hholds
    by_cases hopen : s.cfg.intervalTicks ≤ s.readTime.now - last
    · simpa [hopen] using drives_of_tickSends (hsends (by simp [hopen])).1
    · simpa [hopen] using no_drives_of_tickHolds (hholds (by simp [hopen]))

/-! ### The times of a transmitting TICK (R222, R223) -/

/-- Each of the events lies between the start and the end. -/
theorem time_bounds_of_timesWithin {a b : Nat} {es : List Event} (h : timesWithin a b es = true) :
    ∀ e ∈ es, a ≤ e.time ∧ e.time ≤ b := by
  induction es generalizing a with
  | nil => simp
  | cons first rest ih =>
    simp only [timesWithin, Bool.and_eq_true, decide_eq_true_eq] at h
    obtain ⟨hfirst, hrest⟩ := h
    intro e he
    rcases List.mem_cons.mp he with rfl | he
    · exact ⟨hfirst, timesWithin_le hrest⟩
    · exact ⟨hfirst.trans (ih hrest e he).1, (ih hrest e he).2⟩

/-- An entry of the line history is a Drive among the events (R191). -/
theorem mem_of_mem_lineHistory {es : List Event} {d : Nat × Level} (h : d ∈ lineHistory es) :
    .drive d.1 d.2 ∈ es := by
  obtain ⟨e, he, hd⟩ := List.mem_filterMap.mp h
  cases e with
  | drive t l => cases hd; exact he
  | tx t x => cases hd
  | mask t on => cases hd
  | host t r => cases hd

/-- Settles O39: the drives come after the gate's read, and the gate that was read open is the interval past
its stamp. -/
theorem tickFramesKeepTheInterval : Obligations.TickFramesKeepTheInterval := by
  intro s t es hwidth hidle hexec hlog hdrives
  have hgate := tickGate_of_drives hidle hexec hlog hdrives
  obtain ⟨u, fs, hopen, hran, htimes, -, htrace, -, -, -, hsent, hstamp, -⟩ := exec_tick_open hidle hgate
  cases hexec.symm.trans hopen
  obtain rfl : es = fs := List.append_cancel_left (hlog.symm.trans hran.log)
  rw [counterAt_of_unbounded hwidth] at hstamp
  have hbounds := time_bounds_of_timesWithin htimes
  refine ⟨hsent, hstamp, fun e he => (hbounds e he).2, ?_, fun last hsentBefore hlast d hd => ?_⟩
  · rw [htrace]
    exact List.count_eq_one_of_mem (transmissionTx_nodup 26) (List.mem_cons_self ..)
  · rw [tickGate_of_sent hsentBefore hlast, elapsedTicks_of_unbounded hwidth,
      counterAt_of_unbounded hwidth] at hgate
    have hinterval := of_decide_eq_true (Except.ok.inj hgate)
    have hdrive : s.readTime.now ≤ d.1 := (hbounds _ (mem_of_mem_lineHistory hd)).1
    omega

/-! ### The first TICK after a RESET (R220, R260) -/

/-- Between a RESET and the next TICK: nothing was sent since, the configuration is `c`, and the caller is
going to make the calls `calls`. -/
structure AwaitsFirstTick (c : Config) (calls : List Arrival) (s : State) : Prop where
  idle : s.block.txState = .idle
  unsent : s.block.sentAny = false
  cfg : s.cfg = c
  calls : s.calls = calls

theorem AwaitsFirstTick.afterFetch {c : Config} {calls : List Arrival} {s : State}
    (h : AwaitsFirstTick c calls s) (a : Arrival) (rest : List Arrival) :
    AwaitsFirstTick c rest (s.afterFetch a rest) := ⟨h.idle, h.unsent, h.cfg, rfl⟩

theorem AwaitsFirstTick.markRefused {c : Config} {calls : List Arrival} {s : State}
    (h : AwaitsFirstTick c calls s) (r : RefuseReason) : AwaitsFirstTick c calls (s.markRefused r) :=
  ⟨h.idle, h.unsent, h.cfg, h.calls⟩

theorem exec_reset_awaits {s : State} (hidle : s.block.txState = .idle) :
    ∃ t, exec .reset s = .next t ∧ AwaitsFirstTick s.cfg s.calls t := by
  obtain ⟨t, hexec, hran, hblock, -⟩ := exec_reset hidle
  exact ⟨_, hexec, by simp [hblock], by simp [hblock], hran.cfg, hran.calls⟩

/-- Any operation but TICK, completed or refused, leaves the gate of a RESET as it is (R40). -/
theorem exec_awaits {c : Config} {calls : List Arrival} {i : Instr} {s : State}
    (h : AwaitsFirstTick c calls s) (htick : i ≠ .tick) :
    ∃ t, exec i s = .next t ∧ AwaitsFirstTick c calls t := by
  by_cases hreset : i = .reset
  · obtain ⟨t, hexec, ht⟩ := exec_reset_awaits h.idle
    rw [hreset]
    exact ⟨t, hexec, ht.idle, ht.unsent, ht.cfg.trans h.cfg, ht.calls.trans h.calls⟩
  · rcases exec_cases i s (absurd · htick) with ⟨r, -, hexec⟩ | ⟨-, u, r, es, hexec, -, hu⟩
    · exact ⟨_, hexec, h.markRefused r⟩
    · exact ⟨_, hexec, hu.txState.trans h.idle, (hu.gate htick hreset).1.trans h.unsent,
        hu.cfg.trans h.cfg, hu.calls.trans h.calls⟩

theorem step_awaits {c : Config} {a : Arrival} {rest : List Arrival} {s : State}
    (h : AwaitsFirstTick c (a :: rest) s) (ha : decode a.call ≠ .ok .tick) :
    ∃ t, step s = .next t ∧ AwaitsFirstTick c rest t := by
  have hfetched := h.afterFetch a rest
  cases hdecode : decode a.call with
  | ok i =>
    rw [step_of_decode_ok (fetch_cons h.calls) hdecode]
    exact exec_awaits hfetched fun hi => ha (hi ▸ hdecode)
  | error r =>
    exact ⟨_, step_of_decode_error (fetch_cons h.calls) hdecode, hfetched.markRefused r⟩

theorem runSteps_awaits {c : Config} {rest : List Arrival} : ∀ {between : List Arrival} {s : State},
    AwaitsFirstTick c (between ++ rest) s → (∀ b ∈ between, decode b.call ≠ .ok .tick) →
    ∃ u, runSteps between.length s = some u ∧ AwaitsFirstTick c rest u
  | [], s, h, _ => ⟨s, rfl, h⟩
  | b :: between, s, h, hnone => by
    obtain ⟨t, hstep, ht⟩ := step_awaits h (hnone b (List.mem_cons_self ..))
    obtain ⟨u, hrun, hu⟩ := runSteps_awaits ht fun b' hb' => hnone b' (List.mem_cons_of_mem b hb')
    exact ⟨u, (runSteps_succ hstep).trans hrun, hu⟩

/-- A TICK that finds nothing sent transmits the frame of a snapshot, as BUILD_FRAME answers it in any state
of the same configuration. -/
theorem exec_tick_awaits {calls : List Arrival} {s u : State} (h : AwaitsFirstTick s.cfg calls u) :
    ∃ (v w : State) (es : List Event) (snap : List Half) (f : List Byte),
      exec .tick u = .next v ∧ v.log = u.log ++ es ∧ snap.length = 16 ∧
      exec (.buildFrame snap) s = .next w ∧ w.ret = .bytes f ∧
      levels es = transmissionShape s.cfg f ∧ v.block.sentAny = true := by
  obtain ⟨v, es, hexec, hran, -, hlevels, -, -, -, -, hsent, -⟩ :=
    exec_tick_open h.idle (tickGate_of_unsent h.unsent)
  have hlen := snapDraw_length u.readTime
  rw [h.cfg] at hlevels
  exact ⟨_, _, es, _, _, hexec, hran.log, hlen, exec_buildFrame s hlen, rfl, hlevels, hsent⟩

/-- Settles O40: RESET clears the gate, and no call before the first TICK writes it again. -/
theorem firstTickAfterResetTransmits : Obligations.FirstTickAfterResetTransmits := by
  refine ⟨fun s hidle => ?_, fun s t between rest a hidle hreset hcalls hnone ha => ?_⟩
  · obtain ⟨t, hreset, ht⟩ := exec_reset_awaits hidle
    obtain ⟨u, v, es, snap, f, htick, hsends⟩ := exec_tick_awaits ht
    exact ⟨t, u, v, es, snap, f, hreset, htick, hsends⟩
  · obtain ⟨t', hreset', ht⟩ := exec_reset_awaits hidle
    cases hreset.symm.trans hreset'
    rw [← ht.calls, hcalls] at ht
    obtain ⟨u, hrun, hu⟩ := runSteps_awaits ht hnone
    have hfetched := hu.afterFetch a rest
    obtain ⟨v, w, es, snap, f, htick, hsends⟩ := exec_tick_awaits hfetched
    exact ⟨u, v, w, es, snap, f, hrun, (step_of_decode_ok (fetch_cons hu.calls) ha).trans htick, hsends⟩

end Sys2Proof.Proofs
end

section
/-! Proofs of the statements of the exceptions (60_exceptions.md): the critical sections of every operation, the
refusals of R241, and what host activity does in a window. -/

namespace Sys2Proof.Proofs

open Sys2Proof Sys2Proof.Machine

/-! ### Critical sections (R242, R245, R246) -/

/-- Settles O33: a refusal writes no event and keeps the mask, and every completed operation balances its
critical sections. -/
theorem criticalSectionsAreReleased : Obligations.CriticalSectionsAreReleased := by
  intro i s t hexec
  rcases exec_next hexec with ⟨r, -, rfl⟩ | ⟨u, r, es, rfl, -, hu⟩
  · exact ⟨rfl, [], by simp, rfl⟩
  · exact ⟨hu.irqMasked, es, hu.log, hu.mask⟩

/-- Settles O53: the bound is the last slot boundary of a character and EDGE_SLACK, which every completed
operation keeps. -/
theorem maskIsHeldAtMostOneCharacter : Obligations.MaskIsHeldAtMostOneCharacter := by
  intro i s t hexec
  rcases exec_next hexec with ⟨r, -, rfl⟩ | ⟨u, r, es, rfl, -, hu⟩
  · exact ⟨[], by simp, rfl⟩
  · exact ⟨es, hu.log, hu.held⟩

/-! ### Refusals (R241) -/

/-- An operation that transmits nothing and gates nothing has no re-entrancy check (R256). -/
theorem refusalOf_of_pure {i : Instr} (hpure : transmits i = false) (x : TxState) :
    refusalOf i x = operandRefusal i := by simp [refusalOf, hpure]

/-- A reason of the table is the reason of the refusal; of TICK, whose gate could fault, the table names the
re-entrancy check alone. -/
theorem exec_of_refusalOf {i : Instr} {s : State} {r : RefuseReason}
    (h : refusalOf i s.block.txState = some r) : exec i s = .next (s.markRefused r) := by
  by_cases hbusy : transmits i = true ∧ s.block.txState ≠ .idle
  · obtain rfl : RefuseReason.reentrantTransmit = r := by simpa [refusalOf, hbusy] using h
    exact exec_reentrant hbusy.1 hbusy.2
  · have htick : i ≠ .tick := by
      rintro rfl
      rw [refusalOf, if_neg hbusy] at h
      cases h
    rcases exec_cases i s (absurd · htick) with ⟨r', hr', hexec⟩ | ⟨hnone, -⟩
    · cases h.symm.trans hr'
      exact hexec
    · cases h.symm.trans hnone

/-- Settles O35: the table's reason refuses, and without one an operation that finds its gate written
completes. -/
theorem refusalsAreThoseOfTheTable : Obligations.RefusalsAreThoseOfTheTable := by
  refine fun i s => ⟨fun r hr => exec_of_refusalOf hr, fun hnone hgate => ?_⟩
  rcases exec_cases i s hgate with ⟨r, hr, -⟩ | ⟨-, u, r, es, hexec, hcompletes, -⟩
  · cases hnone.symm.trans hr
  · exact ⟨_, hexec, hcompletes⟩

/-- The operands have their shape just where the table of R241 has no reason against them. -/
theorem operandRefusal_eq_none_iff (i : Instr) : operandRefusal i = none ↔ i.wellFormed = true := by
  cases i with
  | crc8Byte | crc8 | txPreamble | txByte | sendBuffer | tick | reset =>
    simp [operandRefusal, Instr.wellFormed]
  | pack | unpack | buildFrame | buildAndSend =>
    simp only [operandRefusal, ite_not, ite_eq_left_iff, reduceCtorEq, imp_false, not_not,
      Instr.wellFormed, decide_eq_true_eq]
    rfl

/-! ### One call of host activity (R99, R256) -/

/-- An operation that transmits, gates or resets is refused to host activity. -/
theorem hostCall_of_transmits {c : Call} {i : Instr} (hdecode : decode c = .ok i)
    (hi : transmits i = true) (s : State) : hostCall c s = .ok (s.hostRefused .reentrantTransmit) := by
  unfold hostCall
  rw [hdecode]
  cases i with
  | crc8Byte | crc8 | pack | unpack | buildFrame => cases hi
  | txPreamble | txByte | sendBuffer | buildAndSend | tick | reset => rfl

/-- A pure operation runs its own procedure for host activity. -/
theorem hostCall_of_pure {c : Call} {i : Instr} (hdecode : decode c = .ok i)
    (hpure : transmits i = false) (s : State) : hostCall c s = concludeHost s (procedureOf i s) := by
  unfold hostCall
  rw [hdecode]
  cases i with
  | crc8Byte | crc8 | pack | unpack | buildFrame => rfl
  | txPreamble | txByte | sendBuffer | buildAndSend | tick | reset => cases hpure

theorem hostCall_of_reserved {c : Call} (hreserved : ∀ i, selector i ≠ c.sel) (s : State) :
    hostCall c s = .ok (s.hostRefused .reservedSelector) := by
  rcases decode_cases c with ⟨i, -, hsel⟩ | hdecode
  · exact absurd hsel (hreserved i)
  · simp only [hostCall, hdecode]

theorem pureRun_procedureOf {i : Instr} (hpure : transmits i = false) (s : State) :
    PureRun s (procedureOf i s) := by
  cases i with
  | crc8Byte acc b => exact pureRun_crc8Byte acc b s
  | crc8 buf length => exact pureRun_crc8 buf length s
  | pack values => exact pureRun_pack values s
  | unpack payload => exact pureRun_unpack payload s
  | buildFrame snap => exact pureRun_buildFrame snap s
  | txPreamble | txByte | sendBuffer | buildAndSend | tick | reset => cases hpure

/-- The reason that a procedure stops with is the one that the table gives its operation. -/
theorem refusalOf_of_procedureOf {i : Instr} {s : State} {r : RefuseReason}
    (h : procedureOf i s = .error (.refuse r)) : refusalOf i s.block.txState = some r := by
  have hexec : exec i s = .next (s.markRefused r) := by rw [exec_eq_conclude, h, conclude_refuse]
  rcases exec_next hexec with ⟨q, hq, ht⟩ | ⟨u, a, es, ht, hcompletes, -⟩
  · cases congrArg State.ret ht
    exact hq
  · exact absurd (congrArg State.ret ht).symm (hcompletes r)

/-- All that a pure operation called by host activity can do: it answers what the caller would be answered,
or is refused for its operands (R256). -/
theorem hostCall_pure_cases {c : Call} {i : Instr} (hdecode : decode c = .ok i)
    (hpure : transmits i = false) (s : State) :
    (operandRefusal i = none ∧ ∃ r t, hostCall c s = .ok (s.logHost r) ∧ exec i s = .next t ∧
      t.ret = r ∧ ∀ q, r ≠ .refused q) ∨
    ∃ q, operandRefusal i = some q ∧ hostCall c s = .ok (s.hostRefused q) := by
  rw [hostCall_of_pure hdecode hpure, ← refusalOf_of_pure hpure s.block.txState]
  rcases pureRun_procedureOf hpure s with ⟨b, r, hrun, hblock, hcompletes⟩ | ⟨q, hrun⟩
  · have hexec : exec i s = .next (State.complete r { s with block := b }) := by
      rw [exec_eq_conclude, hrun, conclude_ok]
    refine .inl ⟨refusalOf_eq_none hexec hcompletes, r, _, ?_, hexec, rfl, hcompletes⟩
    simp only [hrun, concludeHost, hblock]
  · exact .inr ⟨q, refusalOf_of_procedureOf hrun, by rw [hrun]; rfl⟩

/-- Settles O36, by what the call decodes to and whether its operands have their shape. -/
theorem hostActivityMayOnlyCallPureOperations : Obligations.HostActivityMayOnlyCallPureOperations := by
  refine ⟨fun c i s hdecode => ⟨fun hi => hostCall_of_transmits hdecode hi s, fun hpure hwf => ?_,
    fun hpure hwf => ?_⟩, fun c s hreserved => hostCall_of_reserved hreserved s⟩
  · have hnone := (operandRefusal_eq_none_iff i).mpr hwf
    rcases hostCall_pure_cases hdecode hpure s with ⟨-, r, t, hcall, hexec⟩ | ⟨q, hq, -⟩
    · exact ⟨r, hcall, t, hexec⟩
    · cases hnone.symm.trans hq
  · rcases hostCall_pure_cases hdecode hpure s with ⟨hnone, -⟩ | ⟨q, hq, hcall⟩
    · cases hwf.symm.trans ((operandRefusal_eq_none_iff i).mp hnone)
    · exact ⟨q, hq, hcall⟩

/-! ### A window of host activity (R188, R243) -/

theorem hostWindow_of_masked {s : State} (hmask : s.block.irqMasked = true) :
    hostWindow s = .ok s.elapse := by simp [hostWindow, hmask]

theorem hostWindow_of_batch {s : State} {batch : List Call} {rest : List (List Call)}
    (hmask : s.block.irqMasked = false) (hwork : s.hostWork = batch :: rest) :
    hostWindow s = hostCalls batch { s.elapse with hostWork := rest } := by
  have hmask' : s.elapse.block.irqMasked = false := by rw [State.elapse_block, hmask]
  have hwork' : s.elapse.hostWork = batch :: rest := by rw [State.elapse_hostWork, hwork]
  simp only [hostWindow, hmask', hwork', Bool.false_eq_true, if_false]

theorem hostCalls_cons {c : Call} {v w : State} (h : hostCall c v = .ok w) (cs : List Call) :
    hostCalls (c :: cs) v = hostCalls cs w := by simp [hostCalls, h]

/-- In a state of configuration `cfg` the call `c` is answered `r` at time `now`. -/
def AnsweredAt (cfg : Config) (now : Nat) (c : Call) (r : Return) : Prop :=
  ∃ v w : State, v.cfg = cfg ∧ hostCall c v = .ok w ∧ w.log = v.log ++ [.host now r]

/-- A batch takes no time, leaves the other batches, and gives one answer for each call, in order. -/
theorem hostCalls_answered (cs : List Call) (u : State) :
    ∃ t rs, hostCalls cs u = .ok t ∧ t.hostWork = u.hostWork ∧ t.now = u.now ∧
      t.log = u.log ++ rs.map (Event.host u.now) ∧ List.Forall₂ (AnsweredAt u.cfg u.now) cs rs := by
  induction cs generalizing u with
  | nil => exact ⟨u, [], rfl, rfl, rfl, by simp, .nil⟩
  | cons c cs ih =>
    obtain ⟨v, r, hcall, hran, hwork, hnow⟩ := hostCall_ran c u
    obtain ⟨t, rs, hcalls, hwork', hnow', hlog, hanswers⟩ := ih v
    rw [hran.log, hnow] at hlog
    rw [hran.cfg, hnow] at hanswers
    exact ⟨t, r :: rs, (hostCalls_cons hcall cs).trans hcalls, hwork'.trans hwork, hnow'.trans hnow,
      by simpa using hlog, .cons ⟨u, v, rfl, hcall, hran.log⟩ hanswers⟩

/-- Settles O51: after the time has passed, the batch is answered in the state that has the other batches
left. -/
theorem hostWindowRunsTheNextBatch : Obligations.HostWindowRunsTheNextBatch := by
  intro s batch rest hmask hwork
  obtain ⟨t, rs, hcalls, hleft, hnow, hlog, hanswers⟩ :=
    hostCalls_answered batch { s.elapse with hostWork := rest }
  refine ⟨{ s.elapse with hostWork := rest }, t, rs, s.elapse_block, s.elapse_cfg, s.elapse_log, rfl,
    (ran_elapse s).now_le, (hostWindow_of_batch hmask hwork).trans hcalls, hcalls, hleft, hnow,
    by simpa using hlog, hanswers.length_eq.symm, fun k c hk => ?_, fun c cs v w h => hostCalls_cons h cs⟩
  obtain ⟨hbatch, rfl⟩ := List.getElem?_eq_some_iff.mp hk
  have hrs : k < rs.length := hanswers.length_eq ▸ hbatch
  obtain ⟨v, w, hcfg, hcall, hanswer⟩ := hanswers.get hbatch hrs
  exact ⟨v, w, rs[k], hcfg.trans s.elapse_cfg, hcall, hanswer, List.getElem?_eq_getElem hrs⟩

/-- Settles O37: a masked window lets time pass, which changes nothing else. -/
theorem noHostActivityWhileMasked : Obligations.NoHostActivityWhileMasked := fun s hmask =>
  ⟨s.elapse, hostWindow_of_masked hmask, s.elapse_block, s.elapse_log, s.elapse_hostWork,
    (ran_elapse s).now_le⟩

/-! ### No call to come (R255) -/

/-- Settles O6: without a call nothing is fetched. -/
theorem stepWithoutCallHolds : Obligations.StepWithoutCallHolds := by
  intro s hcalls
  simp only [step, fetch_nil hcalls]

end Sys2Proof.Proofs
end

section
/-! Proof of the statement of the reset and hazards chapter (70_reset_and_hazards.md): how long a frame takes at the
reference parameters. -/

namespace Sys2Proof.Proofs

open Sys2Proof Sys2Proof.Machine

/-! ### The nominal time at the reference parameters (R96, R277) -/

/-- The tick counts of R14 at the reference F_TICK of R15: a preamble level and the gap. -/
theorem reference_ticks : Config.reference.preamblePhaseTicks = 571 ∧ Config.reference.gapTicks = 24000 :=
  ⟨rfl, rfl⟩

/-- The end of a character, E(10), at the reference F_TICK: rounded once and not slot by slot (R95). -/
theorem reference_characterTicks : 10 * Config.reference.fTick / baud = 5714 := rfl

theorem preambleShape_length (c : Config) :
    (preambleShape c).length = if c.preambleEnable then 4 else 0 := by
  unfold preambleShape
  split <;> rfl

/-- The preamble levels are the only part of the nominal time that PREAMBLE_ENABLE decides. -/
theorem nominalTicks_reference (enable : Bool) (n : Nat) :
    nominalTicks { Config.reference with preambleEnable := enable } n =
      (if enable then 4 else 0) * 571 + 24000 + n * 5714 := by
  obtain ⟨hphase, hgap⟩ := reference_ticks
  simp only [nominalTicks, preambleShape_length, hphase, hgap, reference_characterTicks]

/-- Settles O30: BUILD_AND_SEND takes at least the nominal time, whatever the draws are, and the nominal time
of 26 bytes at the reference parameters is the figure of R277. -/
theorem referenceFrameDurationBound : Obligations.ReferenceFrameDurationBound := by
  intro snap s enable hcfg hidle hlen
  obtain ⟨t, -, -, -, hexec, -, -, -, -, -, hnominal, -⟩ := buildAndSendSendsTheFrame snap s hidle hlen
  rw [hcfg, nominalTicks_reference] at hnominal
  refine ⟨t, hexec, ?_⟩
  cases enable with
  | true => simpa using hnominal
  | false => simpa using hnominal

end Sys2Proof.Proofs
end
